-- ==== Sys2Proof/Word.lean ====
section
/-! DEFINITION. The two data widths of the core (spec 00_scope R10, R11): a byte and a word. -/

namespace Sys2Proof

/-- A byte: "an integer in `0 .. 255`" (R11). -/
abbrev Byte := BitVec 8

/-- A word: "an integer in `0 .. 2^32 - 1`" (R11). -/
abbrev Word := BitVec 32

end Sys2Proof
end

