-- ==== Sys2Proof/Config.lean ====
section
/-! DEFINITION. The configuration and the plugged-in algorithm (spec 00_scope R7 to R9, 46_plugin R221, R225;
92_eei_decisions P1 to P7). The spec leaves every one of them open: "A model takes them as arguments and assumes
nothing of them but what `46_plugin.md` rules R221 to R226 state" (R8). The meanings are written over a record
`Params`; the machine runs them at `Config.params`, whose parts are constants without a body, so that nothing can be
proved of them but their bounds and shapes (logs 1, 2). -/

namespace Sys2Proof

/-- `ORDER` (R7): "the convention (big- or little-endian) by which a 32-bit word is packed into or unpacked from 4
bytes". -/
inductive ByteOrder
  | little
  | big
deriving DecidableEq, Repr, Inhabited

/-- One configuration of the core with one plugin: what R7 and R8 list. -/
structure Params where
  /-- `BLOCK_SIZE`, `B` -/
  blockSize : Nat
  /-- `ORDER` -/
  order : ByteOrder
  /-- `STATE_WORDS` -/
  stateWords : Nat
  /-- `OUT_LEN` -/
  outLen : Nat
  /-- `IV` -/
  iv : List Word
  /-- `F`, the single-block compression function -/
  compress : List Word → List Byte → List Word
  /-- `Serialize` -/
  serialize : List Word → List Byte

/-- What the spec requires of the parameters: the bounds of R9 and the shapes of R8, R221, R225. Nothing else. -/
structure Params.Lawful (p : Params) : Prop where
  blockSize_ge : 8 ≤ p.blockSize
  blockSize_le : p.blockSize ≤ 0xFE00
  stateWords_ge : 1 ≤ p.stateWords
  stateWords_le : p.stateWords ≤ 256
  iv_length : p.iv.length = p.stateWords
  compress_length : ∀ s b, (p.compress s b).length = p.stateWords
  serialize_length : ∀ s, (p.serialize s).length = p.outLen

namespace Config

/-- `BLOCK_SIZE - 8`, a constant without a body: R9 asks for `8 <= BLOCK_SIZE <= 0xFE00`. -/
opaque blockSizeAbove8 : Fin 65017

/-- `BLOCK_SIZE` (P1). -/
def blockSize : Nat := 8 + blockSizeAbove8.val

/-- `ORDER` (P2). -/
opaque order : ByteOrder

/-- `STATE_WORDS - 1`, a constant without a body: R9 asks for `1 <= STATE_WORDS <= 256`. -/
opaque stateWordsAbove1 : Fin 256

/-- `STATE_WORDS` (P3). -/
def stateWords : Nat := 1 + stateWordsAbove1.val

/-- `F` (P4), uninterpreted: total, pure, its result has `STATE_WORDS` words (R221). The core hands it states of
`STATE_WORDS` words and blocks of `BLOCK_SIZE` bytes only. -/
opaque compress : List Word → List Byte → Vector Word stateWords

/-- `OUT_LEN` (P7). -/
opaque outLen : Nat

/-- `Serialize` (P5), uninterpreted: total, pure, `OUT_LEN` bytes for every state (R225). -/
opaque serialize : List Word → Vector Byte outLen

/-- `IV` (P6): `STATE_WORDS` words. -/
opaque iv : Vector Word stateWords

/-- The parameters this machine is built with. -/
def params : Params where
  blockSize := blockSize
  order := order
  stateWords := stateWords
  outLen := outLen
  iv := iv.toList
  compress := fun s b => (compress s b).toList
  serialize := fun s => (serialize s).toList

end Config

end Sys2Proof
end

