-- ==== Sys2Proof/Machine/State.lean ====
section
/-! DEFINITION. The state of the core as plain data (spec 10_state R20, R31, R32, R34, R37; 30_encoding R80). -/

namespace Sys2Proof.Machine

/-- `phase`, the 2-bit lifecycle register (R31). -/
inductive Phase
  /-- 0: created, not yet initialised -/
  | uninit
  /-- 1: initialised -/
  | live
  /-- 2: finalised -/
  | final
  /-- 3: a fault was raised; sticky until reset -/
  | fault
deriving DecidableEq, Repr

/-- Where the blocks of a `Compress` dispatch come from (46_plugin R228): the buffer, or the command's payload. -/
inductive Source
  /-- `PEND` -/
  | pend
  /-- `IN` -/
  | input
deriving DecidableEq, Repr

/-- An event of the dispatch trace (46_plugin R228). -/
inductive Event
  /-- `COMPRESS(src, count, blocks)` -/
  | compress (src : Source) (count : Nat) (blocks : List Byte)
  /-- `SERIALIZE(final_state, out)` -/
  | serialize (finalState : List Word) (out : List Byte)
deriving DecidableEq, Repr

/-- The space `PEND` (20_memory R50, R51) as a list of address and byte pairs in one canonical form (`Memory.wf` in
Machine/Ops.lean): addresses strictly rising, no entry equal to `0x00`, which an unlisted address reads as: the reset
value of every byte (10_state R37). -/
abbrev Memory := List Host.Cell

/-- Why the core takes no step. None of these is a fault of the spec (those are next states, R243). -/
inductive Fault
  /-- Raised by `step` when `CMD` is empty: the host has issued no command (70_reset R281). Safe: nothing is claimed. -/
  | awaitingCommand
  /-- Raised by `step` when `CMD` lacks operand words of the packet: "the core waits for them" (30_encoding R86;
  93_implementation_defined U11 "stuck"). Safe: nothing is claimed. -/
  | awaitingOperands
  /-- Raised by the meanings of `ABSORB`, `TRANSFORM`, `B2W` when `DIN` lacks payload bytes of the packet (R86, U11
  "stuck"). Safe: nothing is claimed. -/
  | awaitingPayload
deriving DecidableEq, Repr

/-- Why an instruction has no meaning. -/
inductive Refusal
  /-- Raised by `exec` for an instruction without a meaning; no arm raises it in this model. Safe. -/
  | notModelled (mnemonic : String)
deriving DecidableEq, Repr

/-- Everything the spec gives the machine between two commands. -/
structure State where
  /-- `state[0 .. STATE_WORDS)`, the chaining state (R21) -/
  state : List Word
  /-- `bitlen_lo` (R22) -/
  bitlenLo : Word
  /-- `bitlen_hi` (R22) -/
  bitlenHi : Word
  /-- `pending`, the space `PEND` (R23) -/
  pending : Memory
  /-- `pending_len`, 32 bits (R24) -/
  pendingLen : Word
  /-- `phase` (R31) -/
  phase : Phase
  /-- `fault_code` (R32) -/
  faultCode : Word
  /-- port `CMD`: words waiting, oldest first (R80) -/
  cmd : List Word
  /-- port `DIN`: bytes waiting, oldest first (R80) -/
  din : List Byte
  /-- port `RSP`: words answered, oldest first (R80) -/
  rsp : List Word
  /-- port `DOUT`: bytes emitted, oldest first (R80) -/
  dout : List Byte
  /-- the dispatch trace: events on ports `CU` and `SU`, oldest first (R34) -/
  trace : List Event
deriving DecidableEq, Repr

/-- The core right after reset (R37, R270). -/
def State.reset : State where
  state := List.replicate Config.stateWords 0
  bitlenLo := 0
  bitlenHi := 0
  pending := []
  pendingLen := 0
  phase := .uninit
  faultCode := 0
  cmd := []
  din := []
  rsp := []
  dout := []
  trace := []

end Sys2Proof.Machine
end

