-- ==== Sys2Proof/Machine/Ops.lean ====
section
/-! DEFINITION. The named operations every meaning is written over: the space `PEND` (spec 20_memory R51), the payload
(30_encoding R85, R96), the answers (R91, 20_memory R53), the two dispatches (46_plugin R220, R222, R224), and taking a
fault (60_exceptions R243). -/

namespace Sys2Proof.Machine

/-- `zeros(k)`: "`k` bytes of value `0x00`" (00_scope R12). -/
def zeros (k : Nat) : List Byte := List.replicate k 0

/-! ### The space `PEND` -/

/-- The canonical form: addresses strictly rising, and no entry equal to the `0x00` an unlisted address reads as. -/
abbrev Memory.wf (m : Memory) : Prop :=
  m.Pairwise (fun c d => c.1 < d.1) ∧ ∀ c ∈ m, c.2 ≠ 0

/-- Every listed address lies in `0 .. B-1`, the addresses of `PEND` (R50). -/
abbrev Memory.within (B : Nat) (m : Memory) : Prop := ∀ c ∈ m, c.1 < B

/-- The byte at one address; `0x00` where none is listed (R37). -/
def Memory.read : Memory → Nat → Byte
  | [], _ => 0
  | (k, x) :: rest, a => if k = a then x else Memory.read rest a

/-- Stores one byte; storing `0x00` removes the entry. -/
def Memory.write : Memory → Nat → Byte → Memory
  | [], a, v => if v = 0 then [] else [(a, v)]
  | (k, x) :: rest, a, v =>
    if a < k then (if v = 0 then (k, x) :: rest else (a, v) :: (k, x) :: rest)
    else if a = k then (if v = 0 then rest else (a, v) :: rest)
    else (k, x) :: Memory.write rest a v

/-- `MemRead(PEND, off, n)`: `pending[off .. off+n)` (R51). -/
def Memory.readBytes (m : Memory) (off n : Nat) : List Byte :=
  (List.range n).map fun i => Memory.read m (off + i)

/-- `MemWrite(PEND, off, |v|, v)`: `pending[off+i] <- v[i]`, no other byte (R51). -/
def Memory.writeBytes : Memory → Nat → List Byte → Memory
  | m, _, [] => m
  | m, off, b :: rest => Memory.writeBytes (Memory.write m off b) (off + 1) rest

/-- `MemRead(PEND, off, n)` on the core's buffer. -/
def readPend (s : State) (off n : Nat) : List Byte := Memory.readBytes s.pending off n

/-- `MemWrite(PEND, off, |v|, v)` on the core's buffer. -/
def writePend (off : Nat) (v : List Byte) (s : State) : State :=
  { s with pending := Memory.writeBytes s.pending off v }

/-- `MemWrite(PEND, 0, B, zeros(B))`: the whole buffer is zeroed (41_absorb R121, 43_finalize R158, 45_context R201). -/
def zeroPend (p : Params) (s : State) : State := writePend 0 (zeros p.blockSize) s

/-! ### The packet's payload -/

/-- Takes the `n` payload bytes of a packet from `DIN`: "exactly `len` bytes" (R85), whatever becomes of the command
(R96). None when they are not there yet (R86). -/
def takePayload (n : Nat) (s : State) : Option (List Byte × State) :=
  if n ≤ s.din.length then some (s.din.take n, { s with din := s.din.drop n }) else none

/-! ### Answers -/

/-- Appends words to `RSP`. -/
def respond (ws : List Word) (s : State) : State := { s with rsp := s.rsp ++ ws }

/-- The status word of a normal completion, `0x00000000` (R91). -/
def respondOk (s : State) : State := respond [0] s

/-- The status word OK, then one data word (R91). -/
def respondData (w : Word) (s : State) : State := respond [0, w] s

/-- `Emit(v)`: appends to the output, which leaves on `DOUT` (20_memory R53, R91). -/
def emit (v : List Byte) (s : State) : State := { s with dout := s.dout ++ v }

/-! ### Dispatches to the plugin -/

/-- `CompressN`: "processed block by block in order of increasing offset" (R222). -/
def compressN (p : Params) : List Word → List Byte → Nat → List Word
  | s, _, 0 => s
  | s, blocks, count + 1 =>
    compressN p (p.compress s (blocks.take p.blockSize)) (blocks.drop p.blockSize) count

/-- `Compress(src, blocks, count)`: appends the event, replaces `state` (R220). -/
def dispatchCompress (p : Params) (src : Source) (blocks : List Byte) (count : Nat) (s : State) : State :=
  { s with
    state := compressN p s.state blocks count
    trace := s.trace ++ [.compress src count blocks] }

/-- `Compress(PEND, MemRead(PEND, 0, B), 1)` (R121, R153, R157). -/
def compressPend (p : Params) (s : State) : State :=
  dispatchCompress p .pend (readPend s 0 p.blockSize) 1 s

/-- `SerializeOut()`: `Serialize(state)`, and the event (R224). -/
def serializeOut (p : Params) (s : State) : List Byte × State :=
  let out := p.serialize s.state
  (out, { s with trace := s.trace ++ [.serialize s.state out] })

/-! ### Taking a fault -/

/-- A fault of the spec with its "info" (60_exceptions R241). The info has no register and is not answered. -/
inductive CoreFault
  /-- the command word is illegal (R244) -/
  | illegalCommand (cw : Word)
  /-- the command is not permitted in the current phase (R246) -/
  | protocolViolation
  /-- the index is unmapped, or `CTXWR` targets a read-only register (R245) -/
  | illegalRegister (idx : BitVec 16)
  /-- `pending_len >= BLOCK_SIZE` at entry (R242) -/
  | invariantViolation (pendingLen : Word)
deriving DecidableEq, Repr

/-- The code a fault answers and records (R241). -/
def CoreFault.code : CoreFault → Word
  | .illegalCommand _ => 1
  | .protocolViolation => 2
  | .illegalRegister _ => 3
  | .invariantViolation _ => 4

/-- `raise` (00_scope R14): the effect of a fault (R243): (b) `phase <- FAULT`; (c) `fault_code` takes the code if it
was 0 and stays otherwise; (f) the status word is the code of this fault. Nothing else changes (a), nothing is
dispatched (d). The payload is consumed before a meaning raises (e). -/
def takeFault (f : CoreFault) (s : State) : State :=
  respond [f.code]
    { s with
      phase := .fault
      faultCode := if s.faultCode = 0 then f.code else s.faultCode }

/-- The way out of a fault: "There is no return-from-fault command. `FAULT` is left only by reset" (R250); reset puts
every field at its reset value and empties the ports and the trace (70_reset R270). It is an event between commands,
no command of `exec`. -/
def resetEvent (_ : State) : State := State.reset

end Sys2Proof.Machine
end

