-- ==== Sys2Proof/Machine/Flags.lean ====
section
/-! DEFINITION. The carry of the length counter (spec 41_absorb R113 to R117). The core stores no flag (10_state R36):
the carry is computed and consumed inside one `ABSORB`. -/

namespace Sys2Proof.Machine

/-- `a = (len << 3) mod 2^32`: the low half of the bit count of one call (R113). -/
def bitCountLow (len : Nat) : Word := BitVec.ofNat 32 (len * 8)

/-- `c`: "the new low value is smaller than the previous one" (R113, R115). -/
def carryOut (lo l : Word) : Word := if l < lo then 1 else 0

/-- `BitlenAdd(lo, hi, len)`: the new low and high half (R113). -/
def bitlenAdd (lo hi : Word) (len : Nat) : Word × Word :=
  let l := lo + bitCountLow len
  (l, hi + carryOut lo l + BitVec.ofNat 32 (len / 2 ^ 29))

/-- The 64-bit value of the two halves: `bitlen_hi * 2^32 + bitlen_lo` (10_state R22). -/
def bitlen (s : State) : Nat := s.bitlenHi.toNat * 2 ^ 32 + s.bitlenLo.toNat

/-- `(bitlen_lo, bitlen_hi) <- BitlenAdd(bitlen_lo, bitlen_hi, len)` (R113). -/
def advanceBitlen (len : Nat) (s : State) : State :=
  { s with
    bitlenLo := (bitlenAdd s.bitlenLo s.bitlenHi len).1
    bitlenHi := (bitlenAdd s.bitlenLo s.bitlenHi len).2 }

end Sys2Proof.Machine
end

