-- ==== Sys2Proof/Machine/Absorb.lean ====
section
/-! DEFINITION. `ABSORB` (spec 41_absorb, normative R124): length counter, buffer accumulator, block dispatcher. -/

namespace Sys2Proof.Machine

/-- Fill-only branch (R120): all new bytes go into the buffer. -/
def fillOnly (n : Nat) (data : List Byte) (s : State) : State :=
  { writePend n data s with pendingLen := BitVec.ofNat 32 (n + data.length) }

/-- Complete-and-drain (R121): the first `B - n` bytes complete the block, one dispatch from `PEND`, the whole buffer
zeroed, `pending_len <- 0`. -/
def completeAndDrain (p : Params) (n : Nat) (data : List Byte) (s : State) : State :=
  { zeroPend p (compressPend p (writePend n (data.take (p.blockSize - n)) s)) with pendingLen := 0 }

/-- Bulk dispatch (R122): the whole blocks of the input in one dispatch from `IN`; nothing when there is none. -/
def bulkDispatch (p : Params) (data : List Byte) (s : State) : State :=
  let q := data.length / p.blockSize
  if 1 ≤ q then dispatchCompress p .input (data.take (q * p.blockSize)) q s else s

/-- Remainder (R123): fewer than `B` bytes, copied to the start of the buffer. -/
def storeRemainder (rest : List Byte) (s : State) : State :=
  if rest.length = 0 then s
  else { writePend 0 rest s with pendingLen := BitVec.ofNat 32 rest.length }

/-- R122 then R123, on the input from the cursor on. -/
def bulkAndRemainder (p : Params) (data : List Byte) (s : State) : State :=
  storeRemainder (data.drop (data.length / p.blockSize * p.blockSize)) (bulkDispatch p data s)

/-- The three branches of R119 to R123, after the counter is advanced; `n` is `pending_len` at entry. The comparison
`n + len >= B` is on unbounded integers (R119). -/
def accumulate (p : Params) (n : Nat) (data : List Byte) (s : State) : State :=
  if n = 0 then bulkAndRemainder p data s
  else if p.blockSize ≤ n + data.length then
    bulkAndRemainder p (data.drop (p.blockSize - n)) (completeAndDrain p n data s)
  else fillOnly n data s

/-- `ABSORB(data)` (R124): the entry checks in order (R111), the zero length (R112), the counter (R113), the bytes. -/
def absorbBody (p : Params) (data : List Byte) (s : State) : State :=
  if s.phase ≠ .live then takeFault .protocolViolation s
  else if p.blockSize ≤ s.pendingLen.toNat then takeFault (.invariantViolation s.pendingLen) s
  else if data.length = 0 then respondOk s
  else respondOk (accumulate p s.pendingLen.toNat data (advanceBitlen data.length s))

/-- `ABSORB` as a packet: its payload is exactly `len` bytes (R85). -/
def absorbCommand (p : Params) (len : BitVec 64) (s : State) : Host.Outcome State Fault Refusal :=
  match takePayload len.toNat s with
  | none => .fault .awaitingPayload
  | some (data, s') => .next (absorbBody p data s')

/-- The meaning of `ABSORB`. -/
def execAbsorb (len : BitVec 64) (s : State) : Host.Outcome State Fault Refusal :=
  absorbCommand Config.params len s

end Sys2Proof.Machine
end

