-- ==== Sys2Proof/Machine/Operands.lean ====
section
/-! DEFINITION. The context registers by index, space `CTX` (spec 45_context R204, R205; 20_memory R50). -/

namespace Sys2Proof.Machine

/-- A mapped context register (R204). -/
inductive CtxReg
  | bitlenLo
  | bitlenHi
  | pendingLen
  | phase
  | faultCode
  | cfgBlockSize
  | cfgOrder
  | cfgStateWords
  /-- `STATE[i]` -/
  | stateWord (i : Nat)
  /-- `PENDING[j]` -/
  | pendingByte (j : Nat)
deriving DecidableEq, Repr

/-- The two windows of the index map: `0x0100 + i` and `0x0200 + j` (R204). -/
def ctxWindow (p : Params) (k : Nat) : Option CtxReg :=
  if 0x100 ≤ k ∧ k < 0x100 + p.stateWords then some (.stateWord (k - 0x100))
  else if 0x200 ≤ k ∧ k < 0x200 + p.blockSize then some (.pendingByte (k - 0x200))
  else none

/-- The register at an index as a number; none where it is unmapped (R204). -/
def ctxRegAt (p : Params) (k : Nat) : Option CtxReg :=
  if k = 0x0000 then some .bitlenLo
  else if k = 0x0001 then some .bitlenHi
  else if k = 0x0002 then some .pendingLen
  else if k = 0x0003 then some .phase
  else if k = 0x0004 then some .faultCode
  else if k = 0x0005 then some .cfgBlockSize
  else if k = 0x0006 then some .cfgOrder
  else if k = 0x0007 then some .cfgStateWords
  else ctxWindow p k

/-- The register at an index; none where the index is unmapped (R204). -/
def ctxReg (p : Params) (idx : BitVec 16) : Option CtxReg := ctxRegAt p idx.toNat

/-- The access column of R204: whether `CTXWR` may write the register (R205). -/
def CtxReg.writable : CtxReg → Bool
  | .bitlenLo => true
  | .bitlenHi => true
  | .pendingLen => true
  | .phase => false
  | .faultCode => false
  | .cfgBlockSize => false
  | .cfgOrder => false
  | .cfgStateWords => false
  | .stateWord _ => true
  | .pendingByte _ => true

/-- `phase` as a number (10_state R31). -/
def Phase.code : Phase → Word
  | .uninit => 0
  | .live => 1
  | .final => 2
  | .fault => 3

/-- `CFG_ORDER`: `0` for `LITTLE`, `1` for `BIG` (R204). -/
def orderCode : ByteOrder → Word
  | .little => 0
  | .big => 1

/-- The value column of R204: every register reads as one 32-bit word. -/
def readCtx (p : Params) (s : State) : CtxReg → Word
  | .bitlenLo => s.bitlenLo
  | .bitlenHi => s.bitlenHi
  | .pendingLen => s.pendingLen
  | .phase => s.phase.code
  | .faultCode => s.faultCode
  | .cfgBlockSize => BitVec.ofNat 32 p.blockSize
  | .cfgOrder => orderCode p.order
  | .cfgStateWords => BitVec.ofNat 32 p.stateWords
  | .stateWord i => s.state.getD i 0
  | .pendingByte j => (Memory.read s.pending j).setWidth 32

/-- `case idx of …` of `CTXWR` (R203): exactly one field changes. A read-only register is refused before
(`CtxReg.writable`). -/
def writeCtx (r : CtxReg) (v : Word) (s : State) : State :=
  match r with
  | .bitlenLo => { s with bitlenLo := v }
  | .bitlenHi => { s with bitlenHi := v }
  | .pendingLen => { s with pendingLen := v }
  | .phase => s
  | .faultCode => s
  | .cfgBlockSize => s
  | .cfgOrder => s
  | .cfgStateWords => s
  | .stateWord i => { s with state := s.state.set i v }
  | .pendingByte j => { s with pending := Memory.write s.pending j (v.setWidth 8) }

end Sys2Proof.Machine
end

