-- ==== Sys2Proof/Machine/Context.lean ====
section
/-! DEFINITION. Context initialisation and access: `INIT`, `CTXRD`, `CTXWR` (spec 45_context R200 to R209). -/

namespace Sys2Proof.Machine

/-- `INIT` (R201): `state <- IV`, everything else zero, `phase <- LIVE`; `fault_code` is not touched. -/
def initBody (p : Params) (s : State) : State :=
  if s.phase = .fault then takeFault .protocolViolation s
  else
    respondOk
      { zeroPend p s with
        state := p.iv
        bitlenLo := 0
        bitlenHi := 0
        pendingLen := 0
        phase := .live }

/-- `CTXRD idx` (R202): accepted in every phase. -/
def ctxrdBody (p : Params) (idx : BitVec 16) (s : State) : State :=
  match ctxReg p idx with
  | none => takeFault (.illegalRegister idx) s
  | some r => respondData (readCtx p s r) s

/-- `CTXWR idx, value` (R203): the phase check first, then the index (60_exceptions R248). -/
def ctxwrBody (p : Params) (idx : BitVec 16) (value : Word) (s : State) : State :=
  if s.phase ≠ .live then takeFault .protocolViolation s
  else
    match ctxReg p idx with
    | none => takeFault (.illegalRegister idx) s
    | some r =>
      if r.writable then respondOk (writeCtx r value s) else takeFault (.illegalRegister idx) s

/-- The meaning of `INIT`. -/
def execInit (s : State) : Host.Outcome State Fault Refusal := .next (initBody Config.params s)

/-- The meaning of `CTXRD`. -/
def execCtxrd (idx : BitVec 16) (s : State) : Host.Outcome State Fault Refusal :=
  .next (ctxrdBody Config.params idx s)

/-- The meaning of `CTXWR`. -/
def execCtxwr (idx : BitVec 16) (value : Word) (s : State) : Host.Outcome State Fault Refusal :=
  .next (ctxwrBody Config.params idx value s)

end Sys2Proof.Machine
end

