-- ==== Sys2Proof/Machine/Codec.lean ====
section
/-! DEFINITION. The byte-order codec (spec 44_codec R180 to R188) and the two commands that expose it (R189, R190). -/

namespace Sys2Proof.Machine

/-- `WordFromBytes(s, cur)` (R181): the four bytes from the cursor as one word in the given order, and the cursor 4
further. -/
def wordFromBytes (order : ByteOrder) (s : List Byte) (cur : Nat) : Word × Nat :=
  let b0 := (s.getD cur 0).toNat
  let b1 := (s.getD (cur + 1) 0).toNat
  let b2 := (s.getD (cur + 2) 0).toNat
  let b3 := (s.getD (cur + 3) 0).toNat
  match order with
  | .big => (BitVec.ofNat 32 (b0 * 2 ^ 24 + b1 * 2 ^ 16 + b2 * 2 ^ 8 + b3), cur + 4)
  | .little => (BitVec.ofNat 32 (b0 + b1 * 2 ^ 8 + b2 * 2 ^ 16 + b3 * 2 ^ 24), cur + 4)

/-- `BytesFromWord(w)` (R182): the four bytes in the order of increasing offset. -/
def bytesFromWord (order : ByteOrder) (w : Word) : List Byte :=
  match order with
  | .big => [w.extractLsb' 24 8, w.extractLsb' 16 8, w.extractLsb' 8 8, w.extractLsb' 0 8]
  | .little => [w.extractLsb' 0 8, w.extractLsb' 8 8, w.extractLsb' 16 8, w.extractLsb' 24 8]

/-- `B2W(s)` on its four payload bytes (R189). -/
def b2wBody (p : Params) (payload : List Byte) (s : State) : State :=
  if s.phase = .fault then takeFault .protocolViolation s
  else respondData (wordFromBytes p.order payload 0).1 s

/-- `B2W` as a packet: its payload is exactly four bytes (R85). -/
def b2wCommand (p : Params) (s : State) : Host.Outcome State Fault Refusal :=
  match takePayload 4 s with
  | none => .fault .awaitingPayload
  | some (payload, s') => .next (b2wBody p payload s')

/-- `W2B(w)` (R190): four bytes on `DOUT`, lowest offset first. -/
def w2bBody (p : Params) (w : Word) (s : State) : State :=
  if s.phase = .fault then takeFault .protocolViolation s
  else respondOk (emit (bytesFromWord p.order w) s)

/-- The meaning of `B2W`. -/
def execB2w (s : State) : Host.Outcome State Fault Refusal := b2wCommand Config.params s

/-- The meaning of `W2B`. -/
def execW2b (word : Word) (s : State) : Host.Outcome State Fault Refusal :=
  .next (w2bBody Config.params word s)

end Sys2Proof.Machine
end

