-- ==== Sys2Proof/Machine/Finalize.lean ====
section
/-! DEFINITION. `FINALIZE` (spec 43_finalize, normative R161): padding, the last one or two dispatches, reset of the
tail, the serializer. -/

namespace Sys2Proof.Machine

/-- Step 1 (R152): the marker byte `0x80` at offset `n`. -/
def writeMarker (n : Nat) (s : State) : State := writePend n [0x80] s

/-- Step 2 (R153): zero-fill the rest of the block from `n` and dispatch it; the caller goes on with offset 0. -/
def extraBlock (p : Params) (n : Nat) (s : State) : State :=
  compressPend p (writePend n (zeros (p.blockSize - n)) s)

/-- Step 4 (R155): the two halves of the counter in the last eight bytes, in the order's own order. -/
def writeLength (p : Params) (s : State) : State :=
  match p.order with
  | .big =>
    writePend (p.blockSize - 4) (bytesFromWord p.order s.bitlenLo)
      (writePend (p.blockSize - 8) (bytesFromWord p.order s.bitlenHi) s)
  | .little =>
    writePend (p.blockSize - 4) (bytesFromWord p.order s.bitlenHi)
      (writePend (p.blockSize - 8) (bytesFromWord p.order s.bitlenLo) s)

/-- Steps 3 to 5 (R154, R155, R157) from offset `n`: zero fill, length field, dispatch of the final block. -/
def finalBlock (p : Params) (n : Nat) (s : State) : State :=
  compressPend p (writeLength p (writePend n (zeros (p.blockSize - 8 - n)) s))

/-- Steps 1 to 5: `n` is `pending_len` at entry. -/
def padAndCompress (p : Params) (n : Nat) (s : State) : State :=
  if p.blockSize - 8 < n + 1 then finalBlock p 0 (extraBlock p (n + 1) (writeMarker n s))
  else finalBlock p (n + 1) (writeMarker n s)

/-- Step 6 (R158): `pending_len`, the buffer and the counters to zero. -/
def clearTail (p : Params) (s : State) : State :=
  { zeroPend p s with pendingLen := 0, bitlenLo := 0, bitlenHi := 0 }

/-- Steps 7 and the phase (R159, R160): serialize, emit, `phase <- FINAL`. -/
def finishOutput (p : Params) (s : State) : State :=
  { emit (serializeOut p s).1 (serializeOut p s).2 with phase := .final }

/-- `FINALIZE` (R161): the entry checks in order (R151), then the steps. -/
def finalizeBody (p : Params) (s : State) : State :=
  if s.phase ≠ .live then takeFault .protocolViolation s
  else if p.blockSize ≤ s.pendingLen.toNat then takeFault (.invariantViolation s.pendingLen) s
  else respondOk (finishOutput p (clearTail p (padAndCompress p s.pendingLen.toNat s)))

/-- The meaning of `FINALIZE`. -/
def execFinalize (s : State) : Host.Outcome State Fault Refusal := .next (finalizeBody Config.params s)

end Sys2Proof.Machine
end

