-- ==== Sys2Proof/Machine/Transform.lean ====
section
/-! DEFINITION. `TRANSFORM` (spec 42_transform, normative R141): raw block injection. -/

namespace Sys2Proof.Machine

/-- `TRANSFORM(block)` (R141): one dispatch from `IN`; no check of `pending_len` (R143). -/
def transformBody (p : Params) (block : List Byte) (s : State) : State :=
  if s.phase ≠ .live then takeFault .protocolViolation s
  else respondOk (dispatchCompress p .input block 1 s)

/-- `TRANSFORM` as a packet: its payload is exactly `B` bytes (R85). -/
def transformCommand (p : Params) (s : State) : Host.Outcome State Fault Refusal :=
  match takePayload p.blockSize s with
  | none => .fault .awaitingPayload
  | some (block, s') => .next (transformBody p block s')

/-- The meaning of `TRANSFORM`. -/
def execTransform (s : State) : Host.Outcome State Fault Refusal := transformCommand Config.params s

end Sys2Proof.Machine
end

