-- ==== Sys2Proof/Syntax.lean ====
section
/-! DEFINITION. The abstract commands (spec 30_encoding R81, R83): one constructor per row of opcode_table.json, with
the operands its words on `CMD` carry. The payload on `DIN` is the rest of the packet (`Packet`). `ILLEGAL(cw)` of R81
is no row of the table: the decoder answers it by name (`Decoded.illegal`). -/

namespace Sys2Proof

/-- A decoded command (R81). Every term is well-formed: the operand widths are the encoding's own (R82, R84). -/
inductive Instr
  /-- `INIT` (R201) -/
  | init
  /-- `ABSORB` with `len` bytes of payload; `len` is a 64-bit unsigned integer (R84, R124) -/
  | absorb (len : BitVec 64)
  /-- `TRANSFORM` with `BLOCK_SIZE` bytes of payload (R141) -/
  | transform
  /-- `FINALIZE` (R161) -/
  | finalize
  /-- `CTXRD idx` (R202) -/
  | ctxrd (idx : BitVec 16)
  /-- `CTXWR idx, value` (R203) -/
  | ctxwr (idx : BitVec 16) (value : Word)
  /-- `B2W` with 4 bytes of payload (R189) -/
  | b2w
  /-- `W2B word` (R190) -/
  | w2b (word : Word)
deriving DecidableEq, Repr

/-- How many payload bytes the command takes from `DIN` at block size `B` (R83, R85). -/
def Instr.payloadLen (B : Nat) : Instr → Nat
  | .init => 0
  | .absorb len => len.toNat
  | .transform => B
  | .finalize => 0
  | .ctxrd _ => 0
  | .ctxwr _ _ => 0
  | .b2w => 4
  | .w2b _ => 0

/-- A command packet: the command with its operand words, and its payload (R81, R85). -/
structure Packet where
  instr : Instr
  payload : List Byte
deriving DecidableEq, Repr

end Sys2Proof
end

