-- ==== Sys2Proof/Machine/Dispatch.lean ====
section
/-! DEFINITION. One arm per constructor of `Instr`. -/

namespace Sys2Proof.Machine

def exec (i : Instr) (s : State) : Host.Outcome State Fault Refusal :=
  match i with
  | .init => Sys2Proof.Machine.execInit s
  | .absorb len => Sys2Proof.Machine.execAbsorb len s
  | .transform => Sys2Proof.Machine.execTransform s
  | .finalize => Sys2Proof.Machine.execFinalize s
  | .ctxrd idx => Sys2Proof.Machine.execCtxrd idx s
  | .ctxwr idx value => Sys2Proof.Machine.execCtxwr idx value s
  | .b2w => Sys2Proof.Machine.execB2w s
  | .w2b word => Sys2Proof.Machine.execW2b word s

end Sys2Proof.Machine
end

