-- ==== Sys2Proof/WellFormed.lean ====
section
/-! DEFINITION. Well-formedness. An `Instr` is well-formed by its types (the operand widths of R82, R84). What can be
ill-formed is a packet's payload (R86: the payload bytes the command word calls for) and a configuration's sizes
(R9). -/

namespace Sys2Proof

/-- R86: a packet is well-framed when its payload has exactly the bytes its command calls for. -/
def Packet.wellFramed (p : Params) (k : Packet) : Bool :=
  k.payload.length == k.instr.payloadLen p.blockSize

/-- R9: `8 <= BLOCK_SIZE <= 0xFE00`. -/
def Params.blockSizeOk (p : Params) : Bool := decide (8 ≤ p.blockSize) && decide (p.blockSize ≤ 0xFE00)

/-- R9: `1 <= STATE_WORDS <= 256`. -/
def Params.stateWordsOk (p : Params) : Bool := decide (1 ≤ p.stateWords) && decide (p.stateWords ≤ 256)

/-- R8: `IV` has `STATE_WORDS` words. -/
def Params.ivOk (p : Params) : Bool := p.iv.length == p.stateWords

/-- The three checks of a configuration that can be computed. -/
def Params.sizesOk (p : Params) : Bool := p.blockSizeOk && p.stateWordsOk && p.ivOk

end Sys2Proof
end

