-- ==== Sys2Proof/Decode.lean ====
section
/-! DEFINITION. Decoding the `CMD` stream (spec 30_encoding R82 to R84, R88 to R90): the opcode table as rows of match
and mask, total on every list of words; and after it the encoder, from the same table. -/

namespace Sys2Proof

/-- A row of the opcode map: "`cw & mask == match` selects the row" (R83). -/
structure OpRow where
  matchBits : Word
  mask : Word
deriving DecidableEq, Repr

/-- What a command word selects (R83). -/
inductive Opcode
  | init | absorb | transform | finalize | ctxrd | ctxwr | b2w | w2b
deriving DecidableEq, Repr

/-- What the decoder answers on a stream of words. -/
inductive Decoded
  /-- a command with its operand words, and the words after it -/
  | instr (i : Instr) (rest : List Word)
  /-- `ILLEGAL(cw)` (R88): the packet is the word alone -/
  | illegal (cw : Word) (rest : List Word)
  /-- `CMD` is empty: there is no command word -/
  | noCommand
  /-- `CMD` does not hold the operand words the command word calls for yet (R86) -/
  | noOperands
deriving DecidableEq, Repr

/-- The opcode map (R83), row for row. -/
def opRow : Opcode → OpRow
  | .init => ⟨0x00000001, 0xFFFFFFFF⟩
  | .absorb => ⟨0x00000002, 0xFFFFFFFF⟩
  | .transform => ⟨0x00000003, 0xFFFFFFFF⟩
  | .finalize => ⟨0x00000004, 0xFFFFFFFF⟩
  | .ctxrd => ⟨0x00000005, 0xFF0000FF⟩
  | .ctxwr => ⟨0x00000006, 0xFF0000FF⟩
  | .b2w => ⟨0x00000007, 0xFFFFFFFF⟩
  | .w2b => ⟨0x00000008, 0xFFFFFFFF⟩

/-- The rows in the order of the table (R83). -/
def opcodes : List Opcode :=
  [.init, .absorb, .transform, .finalize, .ctxrd, .ctxwr, .b2w, .w2b]

/-- Whether the row selects the command word (R83). -/
def OpRow.selects (r : OpRow) (cw : Word) : Bool := cw &&& r.mask == r.matchBits

/-- The row a command word selects; none is an illegal word (R88). -/
def opcodeOf (cw : Word) : Option Opcode := opcodes.find? fun op => (opRow op).selects cw

/-- `OP = cw[7:0]` (R82). -/
def opField (cw : Word) : BitVec 8 := cw.extractLsb' 0 8

/-- `IDX = cw[23:8]` (R82). -/
def idxField (cw : Word) : BitVec 16 := cw.extractLsb' 8 16

/-- `RSV = cw[31:24]` (R82). -/
def rsvField (cw : Word) : BitVec 8 := cw.extractLsb' 24 8

/-- `len = LEN_HI * 2^32 + LEN_LO` (R84). -/
def assembleLen (lo hi : Word) : BitVec 64 := BitVec.ofNat 64 (hi.toNat * 2 ^ 32 + lo.toNat)

/-- Reads the operand words after the command word `cw` (R83, R84). -/
def decodeOperands (cw : Word) (rest : List Word) : Opcode → Decoded
  | .init => .instr .init rest
  | .absorb =>
    match rest with
    | lo :: hi :: rest' => .instr (.absorb (assembleLen lo hi)) rest'
    | _ => .noOperands
  | .transform => .instr .transform rest
  | .finalize => .instr .finalize rest
  | .ctxrd => .instr (.ctxrd (idxField cw)) rest
  | .ctxwr =>
    match rest with
    | value :: rest' => .instr (.ctxwr (idxField cw) value) rest'
    | _ => .noOperands
  | .b2w => .instr .b2w rest
  | .w2b =>
    match rest with
    | word :: rest' => .instr (.w2b word) rest'
    | _ => .noOperands

/-- Decodes the first packet's words on `CMD`: total (R89). -/
def decode : List Word → Decoded
  | [] => .noCommand
  | cw :: rest =>
    match opcodeOf cw with
    | none => .illegal cw rest
    | some op => decodeOperands cw rest op

/-- A command word of format `C` (R82): `OP` in bits 7:0, `IDX` in bits 23:8, `RSV = 0` in bits 31:24. -/
def commandWord (op : BitVec 8) (idx : BitVec 16) : Word := (idx.setWidth 32 <<< 8) ||| op.setWidth 32

/-- The words of a command on `CMD` (R83, R84). -/
def encode : Instr → List Word
  | .init => [commandWord 0x01 0]
  | .absorb len => [commandWord 0x02 0, len.extractLsb' 0 32, len.extractLsb' 32 32]
  | .transform => [commandWord 0x03 0]
  | .finalize => [commandWord 0x04 0]
  | .ctxrd idx => [commandWord 0x05 idx]
  | .ctxwr idx value => [commandWord 0x06 idx, value]
  | .b2w => [commandWord 0x07 0]
  | .w2b word => [commandWord 0x08 0, word]

/-- The three words, first word first, of a number whose bit 0 is the least significant bit of the first word, with
every bit above `nbits` zero. Three words are the longest packet on `CMD` (`ABSORB`). -/
def tableWords (nbits w : Nat) : List Word :=
  let v := w % 2 ^ nbits
  [BitVec.ofNat 32 v, BitVec.ofNat 32 (v / 2 ^ 32), BitVec.ofNat 32 (v / 2 ^ 64)]

/-- The command the decoder reads from the bits `w` numbered as opcode_table.json numbers them. -/
def decodeTableWord (nbits w : Nat) : Option Instr :=
  match decode (tableWords nbits w) with
  | .instr i _ => some i
  | .illegal _ _ => none
  | .noCommand => none
  | .noOperands => none

end Sys2Proof
end

