-- ==== Sys2Proof/Machine/Fetch.lean ====
section
/-! DEFINITION. Taking the words of the next packet from `CMD` (spec 30_encoding R80, R84, R86, R88). -/

namespace Sys2Proof.Machine

/-- The core after the words of a packet are taken from `CMD`, `rest` being what is left. -/
def afterWords (rest : List Word) (s : State) : State := { s with cmd := rest }

/-- An illegal command word: a one-word packet; the fault is raised in every phase, before the phase is looked at
(60_exceptions R244, R248). -/
def illegalBody (cw : Word) (rest : List Word) (s : State) : State :=
  takeFault (.illegalCommand cw) (afterWords rest s)

/-- The words of the packet that the number `w` stands for, and no word after it. -/
def packetWords (nbits w : Nat) : List Word :=
  match decode (tableWords nbits w) with
  | .instr i _ => (tableWords nbits w).take (encode i).length
  | .illegal cw _ => [cw]
  | .noCommand => []
  | .noOperands => []

/-- The payload that goes with those words: zero bytes, as many as the command calls for. -/
def packetPayload (nbits w : Nat) : List Byte :=
  match decodeTableWord nbits w with
  | some i => zeros (i.payloadLen Config.params.blockSize)
  | none => []

end Sys2Proof.Machine
end

