-- ==== Sys2Proof/Machine/Step.lean ====
section
/-! DEFINITION. One step: one command packet (spec 00_scope R15, 70_reset R281). -/

namespace Sys2Proof.Machine

/-- Takes the next packet's words from `CMD` and runs its command; waits where the packet is not complete (R86). -/
def step (s : State) : Host.Outcome State Fault Refusal :=
  match decode s.cmd with
  | .instr i rest => exec i (afterWords rest s)
  | .illegal cw rest => .next (illegalBody cw rest s)
  | .noCommand => .fault .awaitingCommand
  | .noOperands => .fault .awaitingOperands

/-- The core with one packet placed in front of what waits on `CMD` and `DIN`: the host issuing a command (log 6). -/
def State.withFetchWord (s : State) (nbits w : Nat) : State :=
  { s with cmd := packetWords nbits w ++ s.cmd, din := packetPayload nbits w ++ s.din }

end Sys2Proof.Machine
end

