-- ==== Sys2Proof/Machine/Issue.lean ====
section
/-! DEFINITION. The host's side of the ports (spec 30_encoding R80, R85, R86, R91; 70_reset R281, R282) and the
pseudo-instructions (30_encoding R94). These are events between steps: `step` uses nothing of this file. -/

namespace Sys2Proof.Machine

/-- The host puts a packet behind what waits on `CMD` and `DIN` (R80, R85). -/
def issuePacket (k : Packet) (s : State) : State :=
  { s with cmd := s.cmd ++ encode k.instr, din := s.din ++ k.payload }

/-- The host puts a raw word on `CMD`: the line `.word` (R93). -/
def issueWord (w : Word) (s : State) : State := { s with cmd := s.cmd ++ [w] }

/-- The host takes what stands on `RSP` and `DOUT` (R80). -/
def collectAnswers (s : State) : List Word × List Byte × State :=
  (s.rsp, s.dout, { s with rsp := [], dout := [] })

/-- A pseudo-instruction (R94). -/
inductive Pseudo
  /-- `ABSORBN <n>, <byte>` -/
  | absorbn (n : Nat) (byte : Byte)
  /-- `DIGEST <bytes>` -/
  | digest (bytes : List Byte)
  /-- `RDLEN` -/
  | rdlen
deriving DecidableEq, Repr

/-- `ABSORB <bytes>`: "`len` is the number of bytes" (R93). -/
def absorbPacket (bytes : List Byte) : Packet := ⟨.absorb (BitVec.ofNat 64 bytes.length), bytes⟩

/-- The expansion of a pseudo-instruction (R94). -/
def Pseudo.expand : Pseudo → List Packet
  | .absorbn n byte => [absorbPacket (List.replicate n byte)]
  | .digest bytes => [⟨.init, []⟩, absorbPacket bytes, ⟨.finalize, []⟩]
  | .rdlen => [⟨.ctxrd 0x0000, []⟩, ⟨.ctxrd 0x0001, []⟩]

end Sys2Proof.Machine
end

