-- ==== Sys2Proof/Safety.lean ====
section
/-! DEFINITION. What claims are stated in: the invariants of the core (spec 10_state R20, R25, R26), the tables of the
spec that claims compare the machine with (30_encoding R88, 45_context R204, 60_exceptions R241, R247, 43_finalize R156,
R164), and what counts as a safe run (60_exceptions R250, 70_reset R281). No meaning uses anything of this file. -/

namespace Sys2Proof.Machine

/-! ### Invariants -/

/-- INV-LEN (R25): `0 <= pending_len < BLOCK_SIZE`. -/
abbrev InvLen (p : Params) (s : State) : Prop := s.pendingLen.toNat < p.blockSize

/-- INV-ZERO (R26): the bytes of `pending` at index `>= pending_len` are zero. -/
def InvZero (p : Params) (s : State) : Prop :=
  ∀ j, s.pendingLen.toNat ≤ j → j < p.blockSize → Memory.read s.pending j = 0

/-- The shape of the context (R20): `STATE_WORDS` words of `state`; `PEND` in its canonical form and inside `0 .. B-1`
(20_memory R50); `phase` is `FAULT` exactly when a fault is recorded (10_state R31, R32). -/
structure Shape (p : Params) (s : State) : Prop where
  stateLength : s.state.length = p.stateWords
  pendingWf : Memory.wf s.pending
  pendingWithin : Memory.within p.blockSize s.pending
  faultRecorded : s.faultCode = 0 ↔ s.phase ≠ .fault

/-- A safe context: no fault was raised since reset (60_exceptions R250). -/
def Healthy (s : State) : Prop := s.faultCode = 0 ∧ s.phase ≠ .fault

/-- The five fields the spec's source gives the context (10_state R20) are the same. -/
structure SameContext (s t : State) : Prop where
  state : t.state = s.state
  bitlenLo : t.bitlenLo = s.bitlenLo
  bitlenHi : t.bitlenHi = s.bitlenHi
  pending : t.pending = s.pending
  pendingLen : t.pendingLen = s.pendingLen

/-- The buffered tail `pending[0 .. pending_len)` (R24). -/
def tailBytes (s : State) : List Byte := readPend s 0 s.pendingLen.toNat

/-! ### Tables of the spec -/

/-- When a command word is illegal (30_encoding R88). -/
abbrev IllegalWord (cw : Word) : Prop :=
  opField cw = 0x00 ∨ 0x09 ≤ (opField cw).toNat ∨ rsvField cw ≠ 0 ∨
    (idxField cw ≠ 0 ∧ opField cw ≠ 0x05 ∧ opField cw ≠ 0x06)

/-- The phase table's `ok` cells (60_exceptions R247). -/
def permitted : Instr → Phase → Bool
  | .init, .uninit => true
  | .init, .live => true
  | .init, .final => true
  | .init, .fault => false
  | .absorb _, ph => ph == .live
  | .transform, ph => ph == .live
  | .finalize, ph => ph == .live
  | .ctxrd _, _ => true
  | .ctxwr _ _, ph => ph == .live
  | .b2w, ph => ph != .fault
  | .w2b _, ph => ph != .fault

/-- The phase after a normal completion (R247). -/
def phaseAfter : Instr → Phase → Phase
  | .init, _ => .live
  | .finalize, _ => .final
  | .absorb _, ph => ph
  | .transform, ph => ph
  | .ctxrd _, ph => ph
  | .ctxwr _ _, ph => ph
  | .b2w, ph => ph
  | .w2b _, ph => ph

/-- The mapped indices (45_context R204). -/
def mappedIndex (p : Params) (k : Nat) : Bool :=
  decide (k ≤ 7) || (decide (0x100 ≤ k) && decide (k < 0x100 + p.stateWords)) ||
    (decide (0x200 ≤ k) && decide (k < 0x200 + p.blockSize))

/-- The indices with read/write access (R204, R205). -/
def writableIndex (p : Params) (k : Nat) : Bool :=
  decide (k ≤ 2) || (decide (0x100 ≤ k) && decide (k < 0x100 + p.stateWords)) ||
    (decide (0x200 ≤ k) && decide (k < 0x200 + p.blockSize))

/-- The status word of a command (30_encoding R91): the first condition of 60_exceptions R241 that holds, in the order
of R248; `0` when none does. -/
def expectedStatus (p : Params) (i : Instr) (s : State) : Word :=
  if !permitted i s.phase then 2
  else
    match i with
    | .ctxrd idx => if mappedIndex p idx.toNat then 0 else 3
    | .ctxwr idx _ => if writableIndex p idx.toNat then 0 else 3
    | .absorb _ => if p.blockSize ≤ s.pendingLen.toNat then 4 else 0
    | .finalize => if p.blockSize ≤ s.pendingLen.toNat then 4 else 0
    | .init => 0
    | .transform => 0
    | .b2w => 0
    | .w2b _ => 0

/-- The data words after the status word of a normal completion: one for `CTXRD` and `B2W` (R91). -/
def dataWords : Instr → Nat
  | .ctxrd _ => 1
  | .b2w => 1
  | .init => 0
  | .absorb _ => 0
  | .transform => 0
  | .finalize => 0
  | .ctxwr _ _ => 0
  | .w2b _ => 0

/-- The output bytes of a normal completion: `OUT_LEN` for `FINALIZE`, four for `W2B` (R91). -/
def outputBytes (p : Params) : Instr → Nat
  | .finalize => p.outLen
  | .w2b _ => 4
  | .init => 0
  | .absorb _ => 0
  | .transform => 0
  | .ctxrd _ => 0
  | .ctxwr _ _ => 0
  | .b2w => 0

/-- The core after a fault of code `c` (60_exceptions R243), the packet being consumed already. -/
def faulted (c : Word) (s : State) : State :=
  { s with
    phase := .fault
    faultCode := if s.faultCode = 0 then c else s.faultCode
    rsp := s.rsp ++ [c] }

/-- The core after the payload of a command is taken (30_encoding R85, R96). -/
def afterPayload (n : Nat) (s : State) : State := { s with din := s.din.drop n }

/-! ### Padding, as the spec describes the blocks -/

/-- The eight bytes of the length field (43_finalize R156): byte `L_i = (L >> 8*i) mod 256`, least significant first
for `LITTLE`, most significant first for `BIG`. -/
def lengthField (o : ByteOrder) (L : Nat) : List Byte :=
  match o with
  | .little => (List.range 8).map fun i => BitVec.ofNat 8 (L / 2 ^ (8 * i))
  | .big => ((List.range 8).map fun i => BitVec.ofNat 8 (L / 2 ^ (8 * i))).reverse

/-- The blocks `FINALIZE` dispatches for the buffered tail `T` and the counter `L` (R164). -/
def paddingBlocks (p : Params) (T : List Byte) (L : Nat) : List (List Byte) :=
  if T.length + 9 ≤ p.blockSize then
    [T ++ [0x80] ++ zeros (p.blockSize - 9 - T.length) ++ lengthField p.order L]
  else
    [T ++ [0x80] ++ zeros (p.blockSize - 1 - T.length), zeros (p.blockSize - 8) ++ lengthField p.order L]

/-- `z`, the number of zero bytes of the padding of a message of `n` bytes (R164). -/
def padZeros (B n : Nat) : Nat := (B - (n + 9) % B) % B

/-- The whole sequence of bytes compressed for a message: `M || 0x80 || zeros(z) || LEN8`, with `LEN8` encoding
`8 * |M| mod 2^64` (R164). -/
def paddedMessage (p : Params) (M : List Byte) : List Byte :=
  M ++ [0x80] ++ zeros (padZeros p.blockSize M.length) ++ lengthField p.order (8 * M.length % 2 ^ 64)

/-- The bytes a dispatch hands to the compression unit (46_plugin R228). -/
def Event.blockBytes : Event → List Byte
  | .compress _ _ blocks => blocks
  | .serialize _ _ => []

/-- How many blocks a dispatch compresses (46_plugin R228). -/
def Event.blockCount : Event → Nat
  | .compress _ count _ => count
  | .serialize _ _ => 0

/-- The bytes a command that completes adds to the length counter (10_state R28): the `len` of `ABSORB`. -/
def absorbedBytes : Instr → Nat
  | .absorb len => len.toNat
  | .init => 0
  | .transform => 0
  | .finalize => 0
  | .ctxrd _ => 0
  | .ctxwr _ _ => 0
  | .b2w => 0
  | .w2b _ => 0

/-! ### Runs of commands -/

/-- `ABSORB` commands one after another, stopping at the first stop. -/
def runAbsorbs : List (BitVec 64) → State → Host.Outcome State Fault Refusal
  | [], s => .next s
  | len :: lens, s =>
    match exec (.absorb len) s with
    | .next t => runAbsorbs lens t
    | .fault f => .fault f
    | .refused r => .refused r

end Sys2Proof.Machine
end

