-- ==== Sys2Proof/Certificates/Slice0/Obligations.lean ====
section
/-! DEFINITION. The statements for the provers. Every statement about the core is about `exec` and `step` at
`Config.params`, whose parts are constants without a body: it holds for every configuration and plugin the spec allows.
A rule in brackets is the rule of spec/ a statement formalises. -/

open Sys2Proof Sys2Proof.Machine

/-! ### Reset, stepping, decoding -/

/-- Reset leaves every field at its reset value, empties the ports and the trace, and is reached from every state
[10_state R37, 70_reset R270]. The empty list of cells reads as `0x00` at every address. -/
def Obligations.ResetLeavesResetValues : Prop :=
  ∀ s : State, resetEvent s = State.reset ∧
    (∀ i, i < Config.params.stateWords → State.reset.state[i]? = some 0) ∧
    State.reset.state.length = Config.params.stateWords ∧
    State.reset.bitlenLo = 0 ∧ State.reset.bitlenHi = 0 ∧
    (∀ j, Memory.read State.reset.pending j = 0) ∧
    State.reset.pendingLen = 0 ∧ State.reset.phase = .uninit ∧ State.reset.faultCode = 0 ∧
    State.reset.cmd = [] ∧ State.reset.din = [] ∧ State.reset.rsp = [] ∧ State.reset.dout = [] ∧
    State.reset.trace = []

/-- The reset state meets the invariants [10_state R20, R25, R26]. -/
def Obligations.ResetMeetsInvariants : Prop :=
  Shape Config.params State.reset ∧ InvLen Config.params State.reset ∧ InvZero Config.params State.reset ∧
    Healthy State.reset

/-- A step runs the decoded command: when the words on `CMD` decode to `i`, or are the words of `i` followed by others,
`step` is `exec i` after those words are taken from `CMD` and nothing else is changed [30_encoding R80, R84]. -/
def Obligations.StepRunsDecodedCommand : Prop :=
  ∀ (s : State) (i : Instr) (rest : List Word),
    (decode s.cmd = .instr i rest → step s = exec i { s with cmd := rest }) ∧
    (s.cmd = encode i ++ rest → step s = exec i { s with cmd := rest })

/-- A command word is illegal exactly under the conditions of [30_encoding R88]; its packet is the word alone; executing
it takes `IllegalCommand` in every phase [60_exceptions R244]. -/
def Obligations.IllegalWordTakesFault : Prop :=
  (∀ (cw : Word) (rest : List Word), decode (cw :: rest) = .illegal cw rest ↔ IllegalWord cw) ∧
  IllegalWord 0x00000000 ∧ IllegalWord 0xFFFFFFFF ∧
  ∀ (s : State) (cw : Word) (rest : List Word), s.cmd = cw :: rest → IllegalWord cw →
    step s = .next (faulted 1 { s with cmd := rest })

/-- Every word decodes to exactly one command or is illegal, and the rows of the opcode map do not overlap
[30_encoding R89]. -/
def Obligations.EveryWordDecodesOnce : Prop :=
  (∀ (cw : Word) (op op' : Opcode), (opRow op).selects cw = true → (opRow op').selects cw = true → op = op') ∧
  (∀ (cw : Word) (op : Opcode), opcodeOf cw = some op ↔ (opRow op).selects cw = true) ∧
  ∀ cw w1 w2 : Word, (∃ i rest, decode [cw, w1, w2] = .instr i rest) ∨ decode [cw, w1, w2] = .illegal cw [w1, w2]

/-- Decoding an encoded command gives it back, with every operand at every value, and leaves the words after it
[30_encoding R82, R83, R84]. -/
def Obligations.DecodeOfEncode : Prop :=
  ∀ (i : Instr) (rest : List Word), decode (encode i ++ rest) = .instr i rest

/-- Words that decode to a command are that command's encoding: no second spelling [30_encoding R83, R88]. -/
def Obligations.EncodeOfDecode : Prop :=
  ∀ (ws : List Word) (i : Instr) (rest : List Word), decode ws = .instr i rest → ws = encode i ++ rest

/-- Worked encodings of the spec [30_encoding R95; 95_test_vectors 3.8]. -/
def Obligations.WorkedEncodingsDecode : Prop :=
  decode [0x00000001] = .instr .init [] ∧
  decode [0x00000002, 0x00000003, 0x00000000] = .instr (.absorb 3) [] ∧
  decode [0x00000002, 0x00000000, 0x00000001] = .instr (.absorb 0x100000000) [] ∧
  decode [0x00000003] = .instr .transform [] ∧
  decode [0x00000004] = .instr .finalize [] ∧
  decode [0x00000105] = .instr (.ctxrd 0x0001) [] ∧
  decode [0x00010205] = .instr (.ctxrd 0x0102) [] ∧
  decode [0x00000206, 0x00000040] = .instr (.ctxwr 0x0002 0x00000040) [] ∧
  decode [0x00020506, 0x000000AA] = .instr (.ctxwr 0x0205 0x000000AA) [] ∧
  decode [0x00000007] = .instr .b2w [] ∧
  decode [0x00000008, 0x01020304] = .instr (.w2b 0x01020304) [] ∧
  decode [0x00000009] = .illegal 0x00000009 [] ∧
  decode [0x00000101] = .illegal 0x00000101 [] ∧
  decode [0x01000004] = .illegal 0x01000004 []

/-- The core stops only where a packet is not complete, and then it does stop: no command word, missing operand words,
or missing payload bytes [30_encoding R86; 93_implementation_defined U11]. It never refuses. -/
def Obligations.StopsOnlyOnIncompletePacket : Prop :=
  ∀ s : State,
    ((∃ f, step s = .fault f) ↔
      (s.cmd = [] ∨ decode s.cmd = .noOperands ∨
        ∃ i rest, decode s.cmd = .instr i rest ∧ s.din.length < i.payloadLen Config.params.blockSize)) ∧
    ∀ r, step s ≠ .refused r

/-- Placing a packet by `withFetchWord` makes the next step run exactly it, with payload bytes of zero (log 6). -/
def Obligations.PlacedPacketRunsNext : Prop :=
  ∀ (s : State) (nbits w : Nat) (i : Instr), decodeTableWord nbits w = some i →
    step (s.withFetchWord nbits w) =
      exec i { s with din := zeros (i.payloadLen Config.params.blockSize) ++ s.din }

/-- A well-framed packet that the host issues to a core with nothing waiting is run by the next step, which completes or
faults but never waits, and leaves nothing of the packet on `CMD` or `DIN` [30_encoding R80, R85, R86, R96]. -/
def Obligations.IssuedPacketRunsWhole : Prop :=
  ∀ (s : State) (k : Packet), s.cmd = [] → s.din = [] → k.wellFramed Config.params = true →
    ∃ t : State, step (issuePacket k s) = .next t ∧ step (issuePacket k s) = exec k.instr { s with din := k.payload } ∧
      t.cmd = [] ∧ t.din = []

/-! ### Invariants and whole-machine rules -/

/-- Every step keeps the shape of the context: `STATE_WORDS` words of state, the buffer in its canonical form inside
`0 .. B-1`, and `phase = FAULT` exactly when a fault code is recorded [10_state R20, R31, R32; 20_memory R62]. -/
def Obligations.StepKeepsShape : Prop :=
  ∀ s t : State, Shape Config.params s → step s = .next t → Shape Config.params t

/-- INV-LEN is kept by every step but a `CTXWR` of `PENDING_LEN` (index 2), INV-ZERO by every step but that and a
`CTXWR` of a buffer byte, and `INIT` establishes both [10_state R25, R26; 45_context R207]. -/
def Obligations.BufferInvariantsKept : Prop :=
  ∀ s t : State, Shape Config.params s → step s = .next t →
    ((∀ idx v rest, decode s.cmd = .instr (.ctxwr idx v) rest → idx ≠ 0x0002) →
      InvLen Config.params s → InvLen Config.params t) ∧
    ((∀ idx v rest, decode s.cmd = .instr (.ctxwr idx v) rest → idx ≠ 0x0002 ∧ idx.toNat < 0x0200) →
      InvZero Config.params s → InvZero Config.params t) ∧
    (∀ rest, decode s.cmd = .instr .init rest → s.phase ≠ .fault → InvLen Config.params t ∧ InvZero Config.params t)

/-- Every step that does not answer OK takes a fault, and a fault changes no field but `phase` and `fault_code`, keeps
the first code, dispatches nothing, consumes its whole packet, and answers its own code and no data
[60_exceptions R243]. -/
def Obligations.FaultChangesOnlyPhaseAndCode : Prop :=
  ∀ s t : State, step s = .next t →
    (∃ data, t.rsp = s.rsp ++ 0 :: data) ∨
    (∃ i rest c, decode s.cmd = .instr i rest ∧ (c = 2 ∨ c = 3 ∨ c = 4) ∧
      t = { s with
        cmd := rest, din := s.din.drop (i.payloadLen Config.params.blockSize), phase := .fault,
        faultCode := if s.faultCode = 0 then c else s.faultCode, rsp := s.rsp ++ [c] }) ∨
    ∃ cw rest, decode s.cmd = .illegal cw rest ∧
      t = { s with
        cmd := rest, phase := .fault, faultCode := if s.faultCode = 0 then 1 else s.faultCode, rsp := s.rsp ++ [1] }

/-- The status word of every command is the first condition of the fault table that holds, in the order of the codes
[60_exceptions R241, R242, R245, R246, R248], and a status other than `0` is a fault taken. -/
def Obligations.StatusIsFirstFault : Prop :=
  ∀ (i : Instr) (s t : State), exec i s = .next t →
    (∃ data, t.rsp = s.rsp ++ expectedStatus Config.params i s :: data) ∧
    (expectedStatus Config.params i s ≠ 0 →
      t = faulted (expectedStatus Config.params i s)
        (afterPayload (i.payloadLen Config.params.blockSize) s))

/-- The phase table [60_exceptions R247]: a command that the current phase does not permit raises `ProtocolViolation`;
one that it permits either completes, and the phase is the table's, or takes another fault, and the phase is `FAULT`; an
illegal command word raises `IllegalCommand` in every phase; in `FAULT` the phase never changes. -/
def Obligations.PhaseTable : Prop :=
  (∀ (i : Instr) (s t : State), exec i s = .next t →
    (permitted i s.phase = false →
      t = faulted 2 (afterPayload (i.payloadLen Config.params.blockSize) s)) ∧
    (permitted i s.phase = true →
      (t.phase = phaseAfter i s.phase ∧ expectedStatus Config.params i s = 0) ∨
      (t.phase = .fault ∧ (expectedStatus Config.params i s = 3 ∨ expectedStatus Config.params i s = 4)))) ∧
  (∀ (s : State) (cw : Word) (rest : List Word), decode s.cmd = .illegal cw rest →
    step s = .next (faulted 1 { s with cmd := rest })) ∧
  ∀ s t : State, s.phase = .fault → step s = .next t → t.phase = .fault

/-- `FAULT` is left by no step, only by reset; the first fault code stays, and nothing of the context, the output or the
trace changes there; every packet but a `CTXRD` of a mapped index is answered with its own fault's code
[60_exceptions R250]. -/
def Obligations.FaultIsAbsorbing : Prop :=
  ∀ s t : State, s.phase = .fault → s.faultCode ≠ 0 →
    (resetEvent s).phase = .uninit ∧
    (step s = .next t →
      t.phase = .fault ∧ t.faultCode = s.faultCode ∧ SameContext s t ∧ t.dout = s.dout ∧ t.trace = s.trace ∧
      (∀ cw rest, decode s.cmd = .illegal cw rest → t.rsp = s.rsp ++ [1]) ∧
      ∀ i rest, decode s.cmd = .instr i rest →
        (∀ idx, i = .ctxrd idx → mappedIndex Config.params idx.toNat = false → t.rsp = s.rsp ++ [3]) ∧
        (∀ idx, i = .ctxrd idx → mappedIndex Config.params idx.toNat = true → ∃ w, t.rsp = s.rsp ++ [0, w]) ∧
        ((∀ idx, i ≠ .ctxrd idx) → t.rsp = s.rsp ++ [2]))

/-- Every step takes exactly one packet, its words from `CMD` and its payload from `DIN`, whether it completes or
faults, and answers exactly one status word, with data words and output bytes only when the status is OK
[30_encoding R85, R91, R96]. -/
def Obligations.PacketConsumedAnsweredOnce : Prop :=
  ∀ s t : State, step s = .next t →
    (∃ (i : Instr) (rest : List Word) (status : Word) (data : List Word) (out : List Byte),
      decode s.cmd = .instr i rest ∧ s.cmd = encode i ++ rest ∧ t.cmd = rest ∧
      i.payloadLen Config.params.blockSize ≤ s.din.length ∧
      t.din = s.din.drop (i.payloadLen Config.params.blockSize) ∧
      t.rsp = s.rsp ++ status :: data ∧ t.dout = s.dout ++ out ∧
      (status = 0 → data.length = dataWords i ∧ out.length = outputBytes Config.params i) ∧
      (status ≠ 0 → data = [] ∧ out = [] ∧ status.toNat ≤ 4)) ∨
    ∃ cw rest, decode s.cmd = .illegal cw rest ∧ s.cmd = cw :: rest ∧ t.cmd = rest ∧ t.din = s.din ∧
      t.rsp = s.rsp ++ [1] ∧ t.dout = s.dout

/-- Each field is changed only by the commands of its "written by" column, or, for `phase` and `fault_code`, by a fault;
only the three dispatching commands lengthen the trace [10_state R20; 46_plugin R229]. -/
def Obligations.FieldsChangeOnlyByTheirWriters : Prop :=
  ∀ (i : Instr) (s t : State), exec i s = .next t →
    (t.state ≠ s.state →
      i = .init ∨ (∃ len, i = .absorb len) ∨ i = .transform ∨ i = .finalize ∨ ∃ idx v, i = .ctxwr idx v) ∧
    (t.bitlenLo ≠ s.bitlenLo ∨ t.bitlenHi ≠ s.bitlenHi ∨ t.pending ≠ s.pending ∨ t.pendingLen ≠ s.pendingLen →
      i = .init ∨ (∃ len, i = .absorb len) ∨ i = .finalize ∨ ∃ idx v, i = .ctxwr idx v) ∧
    (t.phase ≠ s.phase → t.phase = .fault ∨ i = .init ∨ i = .finalize) ∧
    (t.faultCode ≠ s.faultCode → s.faultCode = 0 ∧ t.phase = .fault) ∧
    (t.trace ≠ s.trace → (∃ len, i = .absorb len) ∨ i = .transform ∨ i = .finalize) ∧
    (t.dout ≠ s.dout → i = .finalize ∨ ∃ w, i = .w2b w)

/-- `INIT` is the only way into `LIVE` [60_exceptions R247; 45_context R208]. -/
def Obligations.InitIsTheOnlyWayToLive : Prop :=
  ∀ s t : State, step s = .next t → s.phase ≠ .live → t.phase = .live →
    ∃ rest, decode s.cmd = .instr .init rest

/-! ### INIT, CTXRD, CTXWR -/

/-- `INIT` completes in every phase but `FAULT`: `state` takes `IV`, the counters, the buffer and `pending_len` are
zero, the phase is `LIVE`, the status is OK, and nothing else changes; in `FAULT` it raises `ProtocolViolation`
[45_context R201]. -/
def Obligations.InitLoadsInitialContext : Prop :=
  ∀ s : State, Shape Config.params s →
    (s.phase ≠ .fault →
      exec .init s = .next
        { s with
          state := Config.params.iv, bitlenLo := 0, bitlenHi := 0, pending := [], pendingLen := 0, phase := .live,
          rsp := s.rsp ++ [0] }) ∧
    (s.phase = .fault → exec .init s = .next (faulted 2 s))

/-- `CTXRD` completes in every state: it answers OK and the register's value for every mapped index, raises
`IllegalRegister` for every other, and changes nothing else [45_context R202, R204]. -/
def Obligations.CtxrdAnswersRegister : Prop :=
  ∀ (s : State) (idx : BitVec 16),
    let answer := fun w : Word => Host.Outcome.next (ρ := Refusal) (φ := Fault) { s with rsp := s.rsp ++ [0, w] }
    let k := idx.toNat
    (k = 0x0000 → exec (.ctxrd idx) s = answer s.bitlenLo) ∧
    (k = 0x0001 → exec (.ctxrd idx) s = answer s.bitlenHi) ∧
    (k = 0x0002 → exec (.ctxrd idx) s = answer s.pendingLen) ∧
    (k = 0x0003 → ∃ w, exec (.ctxrd idx) s = answer w ∧
      (s.phase = .uninit → w = 0) ∧ (s.phase = .live → w = 1) ∧ (s.phase = .final → w = 2) ∧
      (s.phase = .fault → w = 3)) ∧
    (k = 0x0004 → exec (.ctxrd idx) s = answer s.faultCode) ∧
    (k = 0x0005 → exec (.ctxrd idx) s = answer (BitVec.ofNat 32 Config.params.blockSize)) ∧
    (k = 0x0006 → exec (.ctxrd idx) s = answer (match Config.params.order with | .little => 0 | .big => 1)) ∧
    (k = 0x0007 → exec (.ctxrd idx) s = answer (BitVec.ofNat 32 Config.params.stateWords)) ∧
    (∀ i, i < Config.params.stateWords → k = 0x0100 + i → exec (.ctxrd idx) s = answer (s.state.getD i 0)) ∧
    (∀ j, j < Config.params.blockSize → k = 0x0200 + j →
      exec (.ctxrd idx) s = answer ((0 : BitVec 24) ++ Memory.read s.pending j)) ∧
    (mappedIndex Config.params k = false → exec (.ctxrd idx) s = .next (faulted 3 s))

/-- `CTXWR` of a read/write register in `LIVE` completes and changes exactly that one field; `PENDING[j]` takes
`value[7:0]` and every other byte of the buffer reads as before. Outside `LIVE` it raises `ProtocolViolation`; in
`LIVE`, of every index that is not read/write, it raises `IllegalRegister` [45_context R203]. -/
def Obligations.CtxwrWritesOneField : Prop :=
  ∀ (s : State) (idx : BitVec 16) (v : Word), Memory.wf s.pending →
    let k := idx.toNat
    let ok := s.rsp ++ [0]
    (s.phase ≠ .live → exec (.ctxwr idx v) s = .next (faulted 2 s)) ∧
    (s.phase = .live →
      (k = 0x0000 → exec (.ctxwr idx v) s = .next { s with bitlenLo := v, rsp := ok }) ∧
      (k = 0x0001 → exec (.ctxwr idx v) s = .next { s with bitlenHi := v, rsp := ok }) ∧
      (k = 0x0002 → exec (.ctxwr idx v) s = .next { s with pendingLen := v, rsp := ok }) ∧
      (∀ i, i < Config.params.stateWords → k = 0x0100 + i →
        exec (.ctxwr idx v) s = .next { s with state := s.state.set i v, rsp := ok }) ∧
      (∀ j, j < Config.params.blockSize → k = 0x0200 + j →
        ∃ m, exec (.ctxwr idx v) s = .next { s with pending := m, rsp := ok } ∧
          Memory.read m j = v.extractLsb' 0 8 ∧ ∀ a, a ≠ j → Memory.read m a = Memory.read s.pending a) ∧
      (writableIndex Config.params k = false → exec (.ctxwr idx v) s = .next (faulted 3 s)))

/-- In `LIVE`, `CTXWR` of the five read-only registers raises `IllegalRegister` and writes nothing, and so does `CTXWR`
of an unmapped index and, in every phase, `CTXRD` of one; unmapped are `STATE[i]` with `i >= STATE_WORDS` and
`PENDING[j]` with `j >= BLOCK_SIZE` among others [45_context R205]. -/
def Obligations.CtxwrRefusals : Prop :=
  (∀ (s : State) (idx : BitVec 16) (v : Word), s.phase = .live →
    (0x0003 ≤ idx.toNat → idx.toNat ≤ 0x0007 → exec (.ctxwr idx v) s = .next (faulted 3 s)) ∧
    (mappedIndex Config.params idx.toNat = false → exec (.ctxwr idx v) s = .next (faulted 3 s))) ∧
  (∀ (s : State) (idx : BitVec 16), mappedIndex Config.params idx.toNat = false →
    exec (.ctxrd idx) s = .next (faulted 3 s)) ∧
  (∀ i, Config.params.stateWords ≤ i → i < 0x0100 → mappedIndex Config.params (0x0100 + i) = false) ∧
  (∀ j, Config.params.blockSize ≤ j → mappedIndex Config.params (0x0200 + j) = false) ∧
  ∀ k, 0x0008 ≤ k → k < 0x0100 → mappedIndex Config.params k = false

/-- What `CTXWR` stores `CTXRD` reads back (its low byte for a buffer byte), and every other index reads as before
[45_context R203, R204]. -/
def Obligations.CtxwrThenCtxrd : Prop :=
  ∀ (s t : State) (idx idx' : BitVec 16) (v : Word),
    Shape Config.params s → s.phase = .live → writableIndex Config.params idx.toNat = true →
    exec (.ctxwr idx v) s = .next t →
    exec (.ctxrd idx) t =
      .next { t with rsp := t.rsp ++ [0, if idx.toNat < 0x0200 then v else (0 : BitVec 24) ++ v.extractLsb' 0 8] } ∧
    (idx' ≠ idx → mappedIndex Config.params idx'.toNat = true →
      ∃ w, exec (.ctxrd idx') s = .next { s with rsp := s.rsp ++ [0, w] } ∧
        exec (.ctxrd idx') t = .next { t with rsp := t.rsp ++ [0, w] })

/-! ### ABSORB -/

/-- `BitlenAdd` is addition modulo `2^64` of `8 * len`, for every `len` [41_absorb R114], and its carry test is exact;
when the low part added is 0 the low half stays [41_absorb R115]. -/
def Obligations.BitlenAddIsExact : Prop :=
  ∀ (lo hi : Word) (len : Nat),
    ((bitlenAdd lo hi len).2.toNat * 2 ^ 32 + (bitlenAdd lo hi len).1.toNat =
      (hi.toNat * 2 ^ 32 + lo.toNat + 8 * len) % 2 ^ 64) ∧
    ((bitlenAdd lo hi len).1 < lo ↔ 2 ^ 32 ≤ lo.toNat + 8 * len % 2 ^ 32) ∧
    (8 * len % 2 ^ 32 = 0 → (bitlenAdd lo hi len).1 = lo ∧ (bitlenAdd lo hi len).2 = hi + BitVec.ofNat 32 (len / 2 ^ 29))

/-- Absorbing `2^29` bytes adds 1 to the high half and leaves the low half [41_absorb R118; 95_test_vectors E2]. -/
def Obligations.CounterCarryAtTwoPow29 : Prop :=
  ∀ lo hi : Word, bitlenAdd lo hi (2 ^ 29) = (lo, hi + 1)

/-- INV-COUNT: the counter is the number of bytes absorbed, in bits. No step but `INIT`, `FINALIZE` and a `CTXWR` of one
of its halves changes it otherwise than by the `len` of an `ABSORB` that completes; `TRANSFORM` and a command that faults
leave it [10_state R28; 41_absorb R118]. -/
def Obligations.CounterCountsAbsorbedBytes : Prop :=
  ∀ (i : Instr) (s t : State), exec i s = .next t → i ≠ .init → i ≠ .finalize →
    (∀ idx v, i = .ctxwr idx v → idx ≠ 0x0000 ∧ idx ≠ 0x0001) →
    bitlen t = (bitlen s + 8 * (if expectedStatus Config.params i s = 0 then absorbedBytes i else 0)) % 2 ^ 64

/-- `ABSORB` outside `LIVE` raises `ProtocolViolation`; in `LIVE` with `pending_len >= B` it raises
`InvariantViolation`, for zero bytes too; both take the payload and have no other effect [41_absorb R111]. -/
def Obligations.AbsorbEntryChecks : Prop :=
  ∀ (s : State) (len : BitVec 64), len.toNat ≤ s.din.length →
    (s.phase ≠ .live → exec (.absorb len) s = .next (faulted 2 (afterPayload len.toNat s))) ∧
    (s.phase = .live → Config.params.blockSize ≤ s.pendingLen.toNat →
      exec (.absorb len) s = .next (faulted 4 (afterPayload len.toNat s)))

/-- `ABSORB` of zero bytes completes and changes nothing but the answer [41_absorb R112]. -/
def Obligations.AbsorbZeroLengthIsNoOp : Prop :=
  ∀ s : State, s.phase = .live → InvLen Config.params s →
    exec (.absorb 0) s = .next { s with rsp := s.rsp ++ [0] }

/-- `ABSORB` with `len > 0` completes, with the post-conditions of [41_absorb R125]: of the stream (buffered tail, then
data) the whole blocks go to the compression function in order and the rest is the new tail, zeros beyond it; the
counter grows by `8 * len` modulo `2^64`; every other field is unchanged but for the packet and its answer. -/
def Obligations.AbsorbPostconditions : Prop :=
  ∀ (s : State) (len : BitVec 64), Shape Config.params s → InvLen Config.params s → InvZero Config.params s →
    s.phase = .live → 0 < len.toNat → len.toNat ≤ s.din.length →
    let B := Config.params.blockSize
    let t' := s.pendingLen.toNat + len.toNat
    let stream := tailBytes s ++ s.din.take len.toNat
    ∃ (t : State) (events : List Event), exec (.absorb len) s = .next t ∧
      t.pendingLen.toNat = t' % B ∧
      tailBytes t = stream.drop (B * (t' / B)) ∧
      (∀ a, t' % B ≤ a → Memory.read t.pending a = 0) ∧
      t.trace = s.trace ++ events ∧
      events.flatMap Event.blockBytes = stream.take (B * (t' / B)) ∧
      t.state = compressN Config.params s.state (stream.take (B * (t' / B))) (t' / B) ∧
      bitlen t = (bitlen s + 8 * len.toNat) % 2 ^ 64 ∧
      InvLen Config.params t ∧ InvZero Config.params t ∧
      t.phase = .live ∧ t.faultCode = s.faultCode ∧ t.cmd = s.cmd ∧ t.din = s.din.drop len.toNat ∧
      t.rsp = s.rsp ++ [0] ∧ t.dout = s.dout

/-- The dispatches of one `ABSORB`, exactly: at most one of source `PEND` with count 1 (the completed block), then at
most one of source `IN` with the whole blocks that remain; `(n + len) / B` blocks in total [41_absorb R126]. -/
def Obligations.AbsorbDispatches : Prop :=
  ∀ (s : State) (len : BitVec 64), Shape Config.params s → InvLen Config.params s →
    s.phase = .live → len.toNat ≤ s.din.length →
    let B := Config.params.blockSize
    let n := s.pendingLen.toNat
    let data := s.din.take len.toNat
    let k := B - n
    ∃ (t : State) (events : List Event), exec (.absorb len) s = .next t ∧ t.trace = s.trace ++ events ∧
      (events.map Event.blockCount).sum = (n + len.toNat) / B ∧
      (n = 0 → events =
        if B ≤ len.toNat then
          [.compress .input (len.toNat / B) (data.take (len.toNat / B * B))] else []) ∧
      (0 < n → n + len.toNat < B → events = []) ∧
      (0 < n → B ≤ n + len.toNat → events = .compress .pend 1 (tailBytes s ++ data.take k) ::
        if B ≤ len.toNat - k then
          [.compress .input ((len.toNat - k) / B) ((data.drop k).take ((len.toNat - k) / B * B))] else [])

/-- The fill-only branch: the new bytes go behind the buffered ones, `pending_len` grows by their number, nothing is
dispatched, `state` is unchanged, and every other byte of the buffer reads as before [41_absorb R120]. -/
def Obligations.AbsorbFillOnlyFrame : Prop :=
  ∀ (s : State) (len : BitVec 64), Shape Config.params s → s.phase = .live → 0 < s.pendingLen.toNat →
    s.pendingLen.toNat + len.toNat < Config.params.blockSize → len.toNat ≤ s.din.length →
    let n := s.pendingLen.toNat
    ∃ t : State, exec (.absorb len) s = .next t ∧
      t.pendingLen.toNat = n + len.toNat ∧ t.state = s.state ∧ t.trace = s.trace ∧
      (∀ a, n ≤ a → a < n + len.toNat → Memory.read t.pending a = s.din.getD (a - n) 0) ∧
      (∀ a, a < n ∨ n + len.toNat ≤ a → Memory.read t.pending a = Memory.read s.pending a)

/-- Streaming equivalence: any way of splitting the input into `ABSORB` commands, zero lengths included, leaves the
same context as one `ABSORB` of the whole, the counter included, after the same blocks dispatched in the same order
(their grouping into events may differ), and `FINALIZE` then gives the same output [41_absorb R127; 10_state R28]. -/
def Obligations.StreamingEquivalence : Prop :=
  ∀ (s : State) (lens : List (BitVec 64)) (total : BitVec 64),
    Shape Config.params s → InvLen Config.params s → InvZero Config.params s → s.phase = .live →
    (lens.map BitVec.toNat).sum = total.toNat → total.toNat ≤ s.din.length →
    ∃ t u t' u' : State,
      runAbsorbs lens s = .next t ∧ exec (.absorb total) s = .next u ∧
      SameContext u t ∧ t.phase = u.phase ∧ t.faultCode = u.faultCode ∧ t.din = u.din ∧
      bitlen t = (bitlen s + 8 * (lens.map BitVec.toNat).sum) % 2 ^ 64 ∧
      t.trace.flatMap Event.blockBytes = u.trace.flatMap Event.blockBytes ∧
      exec .finalize t = .next t' ∧ exec .finalize u = .next u' ∧ SameContext u' t' ∧
      ∃ out, t'.dout = s.dout ++ out ∧ u'.dout = s.dout ++ out

/-- Bytes of `pending` at or beyond `pending_len` reach no dispatch: with other bytes there, `ABSORB` and `FINALIZE`
leave the same `state`, trace, counters, answers and buffered tail [45_context R207; 93_implementation_defined U13]. -/
def Obligations.StrayBytesAreNotSeen : Prop :=
  ∀ (s : State) (m : Memory), Shape Config.params s → Shape Config.params { s with pending := m } →
    s.phase = .live → InvLen Config.params s →
    (∀ a, a < s.pendingLen.toNat → Memory.read m a = Memory.read s.pending a) →
    (∀ len t, exec (.absorb len) s = .next t →
      ∃ m', exec (.absorb len) { s with pending := m } = .next { t with pending := m' } ∧
        ∀ a, a < t.pendingLen.toNat → Memory.read m' a = Memory.read t.pending a) ∧
    ∃ t, exec .finalize s = .next t ∧ exec .finalize { s with pending := m } = .next t

/-! ### TRANSFORM and the plugin interface -/

/-- `TRANSFORM` completes in `LIVE`, whatever `pending_len` holds: `state` is `F` of it and the block, one event, and
nothing else changes but the packet and its answer; in every other phase it raises `ProtocolViolation`
[42_transform R141, R142, R143]. -/
def Obligations.TransformCompressesOneBlock : Prop :=
  ∀ s : State, Config.params.blockSize ≤ s.din.length →
    let B := Config.params.blockSize
    let block := s.din.take B
    (s.phase = .live →
      exec .transform s = .next
        { s with
          state := Config.params.compress s.state block, trace := s.trace ++ [.compress .input 1 block],
          din := s.din.drop B, rsp := s.rsp ++ [0] }) ∧
    (s.phase ≠ .live → exec .transform s = .next (faulted 2 (afterPayload B s)))

/-- A run of blocks is processed block by block: of no block it is the state, of one block it is `F`, and one dispatch
of `i + j` blocks equals a dispatch of `i` blocks and then one of `j` [46_plugin R222], for every plugin. -/
def Obligations.CompressRunSplits : Prop :=
  ∀ (p : Params) (s : List Word),
    (∀ b, compressN p s b 0 = s) ∧
    (∀ b, b.length = p.blockSize → compressN p s b 1 = p.compress s b) ∧
    ∀ (x y : List Byte) (i j : Nat), x.length = i * p.blockSize → y.length = j * p.blockSize →
      compressN p s (x ++ y) (i + j) = compressN p (compressN p s x i) y j

/-- Two `TRANSFORM`s in a row leave the state of one compression of both blocks, with two events
[42_transform R145]. -/
def Obligations.TwoTransformsAreOneRun : Prop :=
  ∀ s : State, s.phase = .live → 2 * Config.params.blockSize ≤ s.din.length →
    let B := Config.params.blockSize
    ∃ t u : State, exec .transform s = .next t ∧ exec .transform t = .next u ∧
      u.state = compressN Config.params s.state (s.din.take (2 * B)) 2 ∧
      u.trace = s.trace ++ [.compress .input 1 (s.din.take B), .compress .input 1 ((s.din.drop B).take B)]

/-! ### FINALIZE -/

/-- `FINALIZE` outside `LIVE` raises `ProtocolViolation`; in `LIVE` with `pending_len >= B` it raises
`InvariantViolation`; neither has any other effect [43_finalize R151]. -/
def Obligations.FinalizeEntryChecks : Prop :=
  ∀ s : State,
    (s.phase ≠ .live → exec .finalize s = .next (faulted 2 s)) ∧
    (s.phase = .live → Config.params.blockSize ≤ s.pendingLen.toNat → exec .finalize s = .next (faulted 4 s))

/-- `FINALIZE` completes in `LIVE` with `pending_len < B`: the blocks dispatched are the padding of the tail, one or two,
each from `PEND` [43_finalize R163, R164], then one `SERIALIZE`; the output is `Serialize` of the final state; the
counters, the buffer and `pending_len` are zero, the phase is `FINAL`, and nothing else changes but the answer
[43_finalize R165]. -/
def Obligations.FinalizePadsAndResets : Prop :=
  ∀ s : State, Shape Config.params s → InvLen Config.params s → s.phase = .live →
    let p := Config.params
    let blocks := paddingBlocks p (tailBytes s) (bitlen s)
    let final := compressN p s.state blocks.flatten blocks.length
    (blocks.length = if s.pendingLen.toNat + 9 ≤ p.blockSize then 1 else 2) ∧
    (∀ b ∈ blocks, b.length = p.blockSize) ∧
    exec .finalize s = .next
      { s with
        state := final, bitlenLo := 0, bitlenHi := 0, pending := [], pendingLen := 0, phase := .final,
        rsp := s.rsp ++ [0], dout := s.dout ++ p.serialize final,
        trace := s.trace ++ blocks.map (.compress .pend 1) ++ [.serialize final (p.serialize final)] }

/-- The length field byte by byte, for both orders: `L_7 … L_0` for `BIG`, `L_0 … L_7` for `LITTLE`, in the last eight
bytes of the buffer; every other byte reads as before [43_finalize R155, R156]. -/
def Obligations.LengthFieldByteByByte : Prop :=
  ∀ (p : Params) (s : State), 8 ≤ p.blockSize → Memory.wf s.pending →
    let L := bitlen s
    let t := writeLength p s
    (∀ i, i < 8 → Memory.read t.pending (p.blockSize - 8 + i) =
      BitVec.ofNat 8 (L / 2 ^ (8 * (match p.order with | .big => 7 - i | .little => i)))) ∧
    (∀ a, a < p.blockSize - 8 ∨ p.blockSize ≤ a → Memory.read t.pending a = Memory.read s.pending a)

/-- End to end: for every message `M`, `INIT`, one `ABSORB` of `M` and `FINALIZE` compress exactly
`M || 0x80 || zeros(z) || LEN8` from `IV`, a multiple of `B` with the least such `z`, and answer `Serialize` of the
result [43_finalize R164]. -/
def Obligations.MessageIsPaddedAndCompressed : Prop :=
  ∀ (s : State) (M : List Byte), Shape Config.params s → s.phase ≠ .fault → M.length < 2 ^ 64 →
    M <+: s.din →
    let p := Config.params
    let padded := paddedMessage p M
    let final := compressN p p.iv padded (padded.length / p.blockSize)
    padded.length % p.blockSize = 0 ∧
    (∀ z, (M.length + 1 + z + 8) % p.blockSize = 0 → padZeros p.blockSize M.length ≤ z) ∧
    ∃ a b c : State, exec .init s = .next a ∧ exec (.absorb (BitVec.ofNat 64 M.length)) a = .next b ∧
      exec .finalize b = .next c ∧ c.state = final ∧ c.dout = s.dout ++ p.serialize final

/-! ### The codec -/

/-- `B2W` completes in every phase but `FAULT`: it answers the word its four payload bytes make in the configured order
and changes nothing else; in `FAULT` it raises `ProtocolViolation` and takes its four bytes [44_codec R189]. -/
def Obligations.B2wComposesWord : Prop :=
  ∀ (s : State) (b0 b1 b2 b3 : Byte) (rest : List Byte), s.din = b0 :: b1 :: b2 :: b3 :: rest →
    (s.phase ≠ .fault → ∃ w : Word,
      exec .b2w s = .next { s with din := rest, rsp := s.rsp ++ [0, w] } ∧
      w.toNat = match Config.params.order with
        | .big => b0.toNat * 2 ^ 24 + b1.toNat * 2 ^ 16 + b2.toNat * 2 ^ 8 + b3.toNat
        | .little => b0.toNat + b1.toNat * 2 ^ 8 + b2.toNat * 2 ^ 16 + b3.toNat * 2 ^ 24) ∧
    (s.phase = .fault → exec .b2w s = .next (faulted 2 { s with din := rest }))

/-- `W2B` completes in every phase but `FAULT`: it emits the four bytes of the word in the configured order and changes
nothing else; in `FAULT` it raises `ProtocolViolation` and emits nothing [44_codec R190]. -/
def Obligations.W2bEmitsBytes : Prop :=
  ∀ (s : State) (w : Word),
    let byte := fun i : Nat => BitVec.ofNat 8 (w.toNat / 2 ^ (8 * i))
    (s.phase ≠ .fault → exec (.w2b w) s = .next
      { s with
        dout := s.dout ++ (match Config.params.order with
          | .big => [byte 3, byte 2, byte 1, byte 0]
          | .little => [byte 0, byte 1, byte 2, byte 3]),
        rsp := s.rsp ++ [0] }) ∧
    (s.phase = .fault → exec (.w2b w) s = .next (faulted 2 s))

/-- The two primitives are mutually inverse in either order, and the big-endian bytes are the little-endian ones
reversed [44_codec R183]. -/
def Obligations.CodecRoundTrip : Prop :=
  (∀ (o : ByteOrder) (w : Word), wordFromBytes o (bytesFromWord o w) 0 = (w, 4)) ∧
  (∀ (o : ByteOrder) (s : List Byte), s.length = 4 → bytesFromWord o (wordFromBytes o s 0).1 = s) ∧
  (∀ w : Word, bytesFromWord .big w = (bytesFromWord .little w).reverse)

/-- The document's example [44_codec R184]. -/
def Obligations.CodecExample : Prop :=
  bytesFromWord .big 0x01020304 = [0x01, 0x02, 0x03, 0x04] ∧
  wordFromBytes .big [0x01, 0x02, 0x03, 0x04] 0 = (0x01020304, 4) ∧
  bytesFromWord .little 0x01020304 = [0x04, 0x03, 0x02, 0x01] ∧
  wordFromBytes .little [0x04, 0x03, 0x02, 0x01] 0 = (0x01020304, 4)
end

