-- ==== Sys2Proof/Laws/Memory.lean ====
section
/-! SUPPORT. The laws of the space `PEND`: reading after writing, the canonical form and the bounds kept by every
memory operation, equal reads mean equal memories. -/

namespace Sys2Proof.Machine

@[simp] theorem Memory.read_nil (a : Nat) : Memory.read [] a = 0 := rfl

theorem Memory.read_cons (k : Nat) (x : Byte) (rest : Memory) (a : Nat) :
    Memory.read ((k, x) :: rest) a = if k = a then x else Memory.read rest a := rfl

theorem Memory.wf_nil : Memory.wf [] := by simp [Memory.wf]

theorem Memory.wf_cons {c : Host.Cell} {m : Memory} :
    Memory.wf (c :: m) ↔ (∀ d ∈ m, c.1 < d.1) ∧ c.2 ≠ 0 ∧ Memory.wf m := by
  simp only [Memory.wf, List.pairwise_cons, List.forall_mem_cons]
  tauto

/-- An address below every listed one reads as an unlisted address. -/
theorem Memory.read_below {m : Memory} {a : Nat} (h : ∀ c ∈ m, a < c.1) : Memory.read m a = 0 := by
  induction m with
  | nil => rfl
  | cons c m ih =>
    obtain ⟨k, x⟩ := c
    have hk := h (k, x) (by simp)
    rw [Memory.read_cons, if_neg (by simp at hk; omega)]
    exact ih fun d hd => h d (List.mem_cons_of_mem _ hd)

/-- An address outside the bounds reads as an unlisted address. -/
theorem Memory.read_outside {m : Memory} {B a : Nat} (h : Memory.within B m) (ha : B ≤ a) :
    Memory.read m a = 0 := by
  induction m with
  | nil => rfl
  | cons c m ih =>
    obtain ⟨k, x⟩ := c
    have hk := h (k, x) (by simp)
    rw [Memory.read_cons, if_neg (by simp at hk; omega)]
    exact ih fun d hd => h d (List.mem_cons_of_mem _ hd)

/-- Every cell after a write is an old one or the one written. -/
theorem Memory.mem_write {m : Memory} {a : Nat} {v : Byte} {c : Host.Cell}
    (h : c ∈ Memory.write m a v) : c ∈ m ∨ (c = (a, v) ∧ v ≠ 0) := by
  induction m with
  | nil =>
    unfold Memory.write at h
    split at h
    · simp at h
    · rename_i hv; right; exact ⟨by simpa using h, hv⟩
  | cons d m ih =>
    obtain ⟨k, x⟩ := d
    unfold Memory.write at h
    split at h
    · split at h
      · exact .inl h
      · rename_i hv
        rcases List.mem_cons.1 h with h | h
        · exact .inr ⟨h, hv⟩
        · exact .inl h
    · split at h
      · split at h
        · exact .inl (List.mem_cons_of_mem _ h)
        · rename_i hv
          rcases List.mem_cons.1 h with h | h
          · exact .inr ⟨h, hv⟩
          · exact .inl (List.mem_cons_of_mem _ h)
      · rcases List.mem_cons.1 h with h | h
        · exact .inl (by simp [h])
        · rcases ih h with h | h
          · exact .inl (List.mem_cons_of_mem _ h)
          · exact .inr h

theorem Memory.write_wf {m : Memory} (h : Memory.wf m) (a : Nat) (v : Byte) :
    Memory.wf (Memory.write m a v) := by
  induction m with
  | nil =>
    unfold Memory.write
    split
    · exact Memory.wf_nil
    · rename_i hv; exact Memory.wf_cons.2 ⟨by simp, hv, Memory.wf_nil⟩
  | cons d m ih =>
    obtain ⟨k, x⟩ := d
    have ⟨h1, h2, h3⟩ := Memory.wf_cons.1 h
    unfold Memory.write
    split
    · rename_i hak
      split
      · exact h
      · rename_i hv
        refine Memory.wf_cons.2 ⟨?_, hv, h⟩
        intro d hd
        rcases List.mem_cons.1 hd with rfl | hd
        · exact hak
        · have := h1 d hd; simp at this ⊢; omega
    · split
      · rename_i hak; subst hak
        split
        · exact h3
        · rename_i hv; exact Memory.wf_cons.2 ⟨h1, hv, h3⟩
      · refine Memory.wf_cons.2 ⟨?_, h2, ih h3⟩
        intro d hd
        rcases Memory.mem_write hd with hd | ⟨rfl, -⟩
        · exact h1 d hd
        · simp; omega

theorem Memory.write_within {m : Memory} {B a : Nat} (h : Memory.within B m) (ha : a < B) (v : Byte) :
    Memory.within B (Memory.write m a v) := by
  intro c hc
  rcases Memory.mem_write hc with hc | ⟨rfl, -⟩
  · exact h c hc
  · exact ha

/-- The read of one byte after the write of one byte. -/
theorem Memory.read_write {m : Memory} (h : Memory.wf m) (a : Nat) (v : Byte) (b : Nat) :
    Memory.read (Memory.write m a v) b = if b = a then v else Memory.read m b := by
  induction m with
  | nil =>
    unfold Memory.write
    split
    · rename_i hv; subst hv; simp
    · rw [Memory.read_cons]; simp only [Memory.read_nil, eq_comm]
  | cons d m ih =>
    obtain ⟨k, x⟩ := d
    have ⟨h1, h2, h3⟩ := Memory.wf_cons.1 h
    have hbelow : ∀ a', a' ≤ k → Memory.read m a' = 0 := fun a' ha =>
      Memory.read_below fun c hc => by have := h1 c hc; simp at this; omega
    unfold Memory.write
    split
    · rename_i hak
      split
      · rename_i hv; subst hv
        by_cases hb : b = a
        · subst hb; rw [Memory.read_cons, if_neg (by omega), if_pos rfl]; exact hbelow b (by omega)
        · simp [hb]
      · rw [Memory.read_cons]; simp only [eq_comm]
    · split
      · rename_i hak; subst hak
        split
        · rename_i hv; subst hv
          by_cases hb : b = a
          · subst hb; simp [hbelow b (le_refl _)]
          · rw [if_neg hb, Memory.read_cons, if_neg (Ne.symm hb)]
        · rw [Memory.read_cons, Memory.read_cons]
          by_cases hb : a = b
          · simp [hb]
          · rw [if_neg hb, if_neg hb, if_neg (Ne.symm hb)]
      · rename_i h4 h5
        rw [Memory.read_cons, Memory.read_cons, ih h3]
        by_cases hk : k = b
        · subst hk; simp; omega
        · simp [hk]

theorem Memory.writeBytes_wf {m : Memory} (h : Memory.wf m) (off : Nat) (v : List Byte) :
    Memory.wf (Memory.writeBytes m off v) := by
  induction v generalizing m off with
  | nil => exact h
  | cons b v ih => exact ih (Memory.write_wf h off b) (off + 1)

theorem Memory.writeBytes_within {m : Memory} {B : Nat} (h : Memory.within B m) (off : Nat) (v : List Byte)
    (hv : off + v.length ≤ B) : Memory.within B (Memory.writeBytes m off v) := by
  induction v generalizing m off with
  | nil => exact h
  | cons b v ih =>
    simp at hv
    exact ih (Memory.write_within h (by omega) b) (off + 1) (by omega)

/-- The read of one byte after `MemWrite` (20_memory R51). -/
theorem Memory.read_writeBytes {m : Memory} (h : Memory.wf m) (off : Nat) (v : List Byte) (a : Nat) :
    Memory.read (Memory.writeBytes m off v) a =
      if off ≤ a ∧ a < off + v.length then v.getD (a - off) 0 else Memory.read m a := by
  induction v generalizing m off with
  | nil => simp [Memory.writeBytes]
  | cons b v ih =>
    rw [Memory.writeBytes, ih (Memory.write_wf h off b), Memory.read_write h]
    by_cases h1 : a = off
    · subst h1; simp
    · by_cases h2 : off + 1 ≤ a ∧ a < off + 1 + v.length
      · rw [if_pos h2, if_pos (by simp; omega)]
        obtain ⟨j, rfl⟩ : ∃ j, a = off + 1 + j := ⟨a - (off + 1), by omega⟩
        rw [show off + 1 + j - (off + 1) = j by omega, show off + 1 + j - off = j + 1 by omega]
        rfl
      · rw [if_neg h2, if_neg h1, if_neg (by simp; omega)]

/-- Two runs written one behind the other are one run. -/
theorem Memory.writeBytes_append (m : Memory) (off : Nat) (v w : List Byte) :
    Memory.writeBytes m off (v ++ w) = Memory.writeBytes (Memory.writeBytes m off v) (off + v.length) w := by
  induction v generalizing m off with
  | nil => rfl
  | cons b v ih =>
    rw [List.cons_append, Memory.writeBytes, Memory.writeBytes, ih, List.length_cons, Nat.add_assoc, Nat.add_comm 1]

@[simp] theorem Memory.readBytes_length (m : Memory) (off n : Nat) :
    (Memory.readBytes m off n).length = n := by simp [Memory.readBytes]

@[simp] theorem Memory.readBytes_zero (m : Memory) (off : Nat) : Memory.readBytes m off 0 = [] := rfl

theorem Memory.readBytes_getElem (m : Memory) (off n i : Nat) (h : i < (Memory.readBytes m off n).length) :
    (Memory.readBytes m off n)[i] = Memory.read m (off + i) := by simp [Memory.readBytes]

/-- Two reads of a range agree when every byte of it does. -/
theorem Memory.readBytes_congr {m m' : Memory} {off n : Nat}
    (h : ∀ a, off ≤ a → a < off + n → Memory.read m a = Memory.read m' a) :
    Memory.readBytes m off n = Memory.readBytes m' off n := by
  unfold Memory.readBytes
  refine List.map_congr_left fun i hi => h _ (by omega) ?_
  have := List.mem_range.1 hi
  omega

theorem Memory.readBytes_add (m : Memory) (off a b : Nat) :
    Memory.readBytes m off (a + b) = Memory.readBytes m off a ++ Memory.readBytes m (off + a) b := by
  simp [Memory.readBytes, List.range_add, Nat.add_assoc]

/-- Reading back what was just written. -/
theorem Memory.readBytes_writeBytes_same {m : Memory} (h : Memory.wf m) (off : Nat) (v : List Byte) :
    Memory.readBytes (Memory.writeBytes m off v) off v.length = v := by
  refine List.ext_getElem (by simp) fun i h1 h2 => ?_
  rw [Memory.readBytes_getElem, Memory.read_writeBytes h, if_pos (by omega)]
  simp [h2]

/-- A range that a write does not touch reads as before. -/
theorem Memory.readBytes_writeBytes_disjoint {m : Memory} (h : Memory.wf m) {off off' n : Nat} {v : List Byte}
    (hd : off' + n ≤ off ∨ off + v.length ≤ off') :
    Memory.readBytes (Memory.writeBytes m off v) off' n = Memory.readBytes m off' n :=
  Memory.readBytes_congr fun a h1 h2 => by rw [Memory.read_writeBytes h, if_neg (by omega)]

/-- The bytes up to the end of a write: what stood before it, then what was written. -/
theorem Memory.readBytes_writeBytes_upto {m : Memory} (h : Memory.wf m) (off : Nat) (v : List Byte) :
    Memory.readBytes (Memory.writeBytes m off v) 0 (off + v.length) = Memory.readBytes m 0 off ++ v := by
  rw [Memory.readBytes_add, Nat.zero_add, Memory.readBytes_writeBytes_same h,
    Memory.readBytes_writeBytes_disjoint h (.inl (by omega))]

/-- The listed cell of a canonical memory reads as its byte. -/
theorem Memory.read_of_mem {m : Memory} (h : Memory.wf m) {c : Host.Cell} (hc : c ∈ m) :
    Memory.read m c.1 = c.2 := by
  induction m with
  | nil => simp at hc
  | cons d m ih =>
    obtain ⟨k, x⟩ := d
    have ⟨h1, h2, h3⟩ := Memory.wf_cons.1 h
    rw [Memory.read_cons]
    rcases List.mem_cons.1 hc with rfl | hc
    · simp
    · have := h1 c hc
      rw [if_neg (by simp at this; omega)]
      exact ih h3 hc

/-- A canonical memory in which every address reads `0x00` lists nothing. -/
theorem Memory.eq_nil_of_read {m : Memory} (h : Memory.wf m) (hr : ∀ a, Memory.read m a = 0) : m = [] := by
  cases m with
  | nil => rfl
  | cons c m => exact absurd ((Memory.read_of_mem h (by simp)).symm.trans (hr c.1)) (Memory.wf_cons.1 h).2.1

/-- Equal reads mean equal memories. -/
theorem Memory.ext_read {m m' : Memory} (h : Memory.wf m) (h' : Memory.wf m')
    (hr : ∀ a, Memory.read m a = Memory.read m' a) : m = m' := by
  induction m generalizing m' with
  | nil => exact (Memory.eq_nil_of_read h' fun a => (hr a).symm).symm
  | cons c m ih =>
    obtain ⟨k, x⟩ := c
    have ⟨h1, h2, h3⟩ := Memory.wf_cons.1 h
    cases m' with
    | nil => exact absurd (by simpa [Memory.read_cons] using hr k) h2
    | cons c' m' =>
      obtain ⟨k', x'⟩ := c'
      have ⟨h1', h2', h3'⟩ := Memory.wf_cons.1 h'
      have e1 : Memory.read ((k', x') :: m') k = x := by rw [← hr k]; simp [Memory.read_cons]
      have e2 : Memory.read ((k, x) :: m) k' = x' := by rw [hr k']; simp [Memory.read_cons]
      have below : ∀ a, a ≤ k → Memory.read m a = 0 := fun a ha =>
        Memory.read_below fun c hc => by have := h1 c hc; simp at this; omega
      have below' : ∀ a, a ≤ k' → Memory.read m' a = 0 := fun a ha =>
        Memory.read_below fun c hc => by have := h1' c hc; simp at this; omega
      have hk : k = k' := by
        rcases lt_trichotomy k k' with hlt | heq | hgt
        · rw [Memory.read_cons, if_neg (by omega), below' k (by omega)] at e1; exact absurd e1.symm h2
        · exact heq
        · rw [Memory.read_cons, if_neg (by omega), below k' (by omega)] at e2; exact absurd e2.symm h2'
      subst hk
      have hx : x = x' := by simpa [Memory.read_cons] using e1.symm
      subst hx
      refine congrArg _ (ih h3 h3' fun a => ?_)
      by_cases ha : a = k
      · subst ha; rw [below a (le_refl _), below' a (le_refl _)]
      · simpa [Memory.read_cons, Ne.symm ha] using hr a

@[simp] theorem zeros_length (k : Nat) : (zeros k).length = k := by simp [zeros]

theorem zeros_getD (k i : Nat) : (zeros k).getD i 0 = 0 := by
  simp only [zeros, List.getD_eq_getElem?_getD, List.getElem?_replicate]
  split <;> rfl

theorem zeros_add (a b : Nat) : zeros (a + b) = zeros a ++ zeros b := by
  unfold zeros; rw [List.replicate_append_replicate]

/-- Zeroing the whole buffer leaves no cell. -/
theorem Memory.writeBytes_zeros {m : Memory} {B : Nat} (h : Memory.wf m) (hw : Memory.within B m) :
    Memory.writeBytes m 0 (zeros B) = [] :=
  Memory.eq_nil_of_read (Memory.writeBytes_wf h _ _) fun a => by
    rw [Memory.read_writeBytes h]
    split
    · exact zeros_getD _ _
    · exact Memory.read_outside hw (by simp at *; omega)

/-- The empty buffer reads as zeros. -/
theorem Memory.readBytes_nil (off n : Nat) : Memory.readBytes [] off n = zeros n := by
  refine List.ext_getElem (by simp) fun i h1 h2 => ?_
  rw [Memory.readBytes_getElem]; simp [zeros]

end Sys2Proof.Machine
end

