-- ==== Sys2Proof/Laws/Params.lean ====
section
/-! SUPPORT. The constants of Config meet the bounds and shapes the spec asks for (00_scope R8, R9; 46_plugin R221,
R225): all that is known of them. -/

namespace Sys2Proof

theorem Config.params_lawful : Config.params.Lawful where
  blockSize_ge := Nat.le_add_right 8 _
  blockSize_le := by
    have := Config.blockSizeAbove8.isLt
    show 8 + Config.blockSizeAbove8.val ≤ 0xFE00
    omega
  stateWords_ge := Nat.le_add_right 1 _
  stateWords_le := by
    have := Config.stateWordsAbove1.isLt
    show 1 + Config.stateWordsAbove1.val ≤ 256
    omega
  iv_length := Config.iv.size_toArray
  compress_length := fun s b => (Config.compress s b).size_toArray
  serialize_length := fun s => (Config.serialize s).size_toArray

end Sys2Proof
end

