-- ==== Sys2Proof/Laws/State.lean ====
section
/-! SUPPORT. One lemma per field per update, true by unfolding the update once. No later proof unfolds a record update. -/

namespace Sys2Proof.Machine

section
variable (off : Nat) (v : List Byte) (s : State)
@[simp] theorem writePend_state : (writePend off v s).state = s.state := rfl
@[simp] theorem writePend_bitlenLo : (writePend off v s).bitlenLo = s.bitlenLo := rfl
@[simp] theorem writePend_bitlenHi : (writePend off v s).bitlenHi = s.bitlenHi := rfl
@[simp] theorem writePend_pending : (writePend off v s).pending = Memory.writeBytes s.pending off v := rfl
@[simp] theorem writePend_pendingLen : (writePend off v s).pendingLen = s.pendingLen := rfl
@[simp] theorem writePend_phase : (writePend off v s).phase = s.phase := rfl
@[simp] theorem writePend_faultCode : (writePend off v s).faultCode = s.faultCode := rfl
@[simp] theorem writePend_cmd : (writePend off v s).cmd = s.cmd := rfl
@[simp] theorem writePend_din : (writePend off v s).din = s.din := rfl
@[simp] theorem writePend_rsp : (writePend off v s).rsp = s.rsp := rfl
@[simp] theorem writePend_dout : (writePend off v s).dout = s.dout := rfl
@[simp] theorem writePend_trace : (writePend off v s).trace = s.trace := rfl
end

section
variable (p : Params) (s : State)
@[simp] theorem zeroPend_state : (zeroPend p s).state = s.state := rfl
@[simp] theorem zeroPend_bitlenLo : (zeroPend p s).bitlenLo = s.bitlenLo := rfl
@[simp] theorem zeroPend_bitlenHi : (zeroPend p s).bitlenHi = s.bitlenHi := rfl
@[simp] theorem zeroPend_pending : (zeroPend p s).pending = Memory.writeBytes s.pending 0 (zeros p.blockSize) := rfl
@[simp] theorem zeroPend_pendingLen : (zeroPend p s).pendingLen = s.pendingLen := rfl
@[simp] theorem zeroPend_phase : (zeroPend p s).phase = s.phase := rfl
@[simp] theorem zeroPend_faultCode : (zeroPend p s).faultCode = s.faultCode := rfl
@[simp] theorem zeroPend_cmd : (zeroPend p s).cmd = s.cmd := rfl
@[simp] theorem zeroPend_din : (zeroPend p s).din = s.din := rfl
@[simp] theorem zeroPend_rsp : (zeroPend p s).rsp = s.rsp := rfl
@[simp] theorem zeroPend_dout : (zeroPend p s).dout = s.dout := rfl
@[simp] theorem zeroPend_trace : (zeroPend p s).trace = s.trace := rfl
end

section
variable (ws : List Word) (s : State)
@[simp] theorem respond_state : (respond ws s).state = s.state := rfl
@[simp] theorem respond_bitlenLo : (respond ws s).bitlenLo = s.bitlenLo := rfl
@[simp] theorem respond_bitlenHi : (respond ws s).bitlenHi = s.bitlenHi := rfl
@[simp] theorem respond_pending : (respond ws s).pending = s.pending := rfl
@[simp] theorem respond_pendingLen : (respond ws s).pendingLen = s.pendingLen := rfl
@[simp] theorem respond_phase : (respond ws s).phase = s.phase := rfl
@[simp] theorem respond_faultCode : (respond ws s).faultCode = s.faultCode := rfl
@[simp] theorem respond_cmd : (respond ws s).cmd = s.cmd := rfl
@[simp] theorem respond_din : (respond ws s).din = s.din := rfl
@[simp] theorem respond_rsp : (respond ws s).rsp = s.rsp ++ ws := rfl
@[simp] theorem respond_dout : (respond ws s).dout = s.dout := rfl
@[simp] theorem respond_trace : (respond ws s).trace = s.trace := rfl
end

section
variable (s : State)
@[simp] theorem respondOk_state : (respondOk s).state = s.state := rfl
@[simp] theorem respondOk_bitlenLo : (respondOk s).bitlenLo = s.bitlenLo := rfl
@[simp] theorem respondOk_bitlenHi : (respondOk s).bitlenHi = s.bitlenHi := rfl
@[simp] theorem respondOk_pending : (respondOk s).pending = s.pending := rfl
@[simp] theorem respondOk_pendingLen : (respondOk s).pendingLen = s.pendingLen := rfl
@[simp] theorem respondOk_phase : (respondOk s).phase = s.phase := rfl
@[simp] theorem respondOk_faultCode : (respondOk s).faultCode = s.faultCode := rfl
@[simp] theorem respondOk_cmd : (respondOk s).cmd = s.cmd := rfl
@[simp] theorem respondOk_din : (respondOk s).din = s.din := rfl
@[simp] theorem respondOk_rsp : (respondOk s).rsp = s.rsp ++ [0] := rfl
@[simp] theorem respondOk_dout : (respondOk s).dout = s.dout := rfl
@[simp] theorem respondOk_trace : (respondOk s).trace = s.trace := rfl
end

section
variable (w : Word) (s : State)
@[simp] theorem respondData_state : (respondData w s).state = s.state := rfl
@[simp] theorem respondData_bitlenLo : (respondData w s).bitlenLo = s.bitlenLo := rfl
@[simp] theorem respondData_bitlenHi : (respondData w s).bitlenHi = s.bitlenHi := rfl
@[simp] theorem respondData_pending : (respondData w s).pending = s.pending := rfl
@[simp] theorem respondData_pendingLen : (respondData w s).pendingLen = s.pendingLen := rfl
@[simp] theorem respondData_phase : (respondData w s).phase = s.phase := rfl
@[simp] theorem respondData_faultCode : (respondData w s).faultCode = s.faultCode := rfl
@[simp] theorem respondData_cmd : (respondData w s).cmd = s.cmd := rfl
@[simp] theorem respondData_din : (respondData w s).din = s.din := rfl
@[simp] theorem respondData_rsp : (respondData w s).rsp = s.rsp ++ [0, w] := rfl
@[simp] theorem respondData_dout : (respondData w s).dout = s.dout := rfl
@[simp] theorem respondData_trace : (respondData w s).trace = s.trace := rfl
end

section
variable (v : List Byte) (s : State)
@[simp] theorem emit_state : (emit v s).state = s.state := rfl
@[simp] theorem emit_bitlenLo : (emit v s).bitlenLo = s.bitlenLo := rfl
@[simp] theorem emit_bitlenHi : (emit v s).bitlenHi = s.bitlenHi := rfl
@[simp] theorem emit_pending : (emit v s).pending = s.pending := rfl
@[simp] theorem emit_pendingLen : (emit v s).pendingLen = s.pendingLen := rfl
@[simp] theorem emit_phase : (emit v s).phase = s.phase := rfl
@[simp] theorem emit_faultCode : (emit v s).faultCode = s.faultCode := rfl
@[simp] theorem emit_cmd : (emit v s).cmd = s.cmd := rfl
@[simp] theorem emit_din : (emit v s).din = s.din := rfl
@[simp] theorem emit_rsp : (emit v s).rsp = s.rsp := rfl
@[simp] theorem emit_dout : (emit v s).dout = s.dout ++ v := rfl
@[simp] theorem emit_trace : (emit v s).trace = s.trace := rfl
end

section
variable (p : Params) (src : Source) (blocks : List Byte) (count : Nat) (s : State)
@[simp] theorem dispatchCompress_state : (dispatchCompress p src blocks count s).state = compressN p s.state blocks count := rfl
@[simp] theorem dispatchCompress_bitlenLo : (dispatchCompress p src blocks count s).bitlenLo = s.bitlenLo := rfl
@[simp] theorem dispatchCompress_bitlenHi : (dispatchCompress p src blocks count s).bitlenHi = s.bitlenHi := rfl
@[simp] theorem dispatchCompress_pending : (dispatchCompress p src blocks count s).pending = s.pending := rfl
@[simp] theorem dispatchCompress_pendingLen : (dispatchCompress p src blocks count s).pendingLen = s.pendingLen := rfl
@[simp] theorem dispatchCompress_phase : (dispatchCompress p src blocks count s).phase = s.phase := rfl
@[simp] theorem dispatchCompress_faultCode : (dispatchCompress p src blocks count s).faultCode = s.faultCode := rfl
@[simp] theorem dispatchCompress_cmd : (dispatchCompress p src blocks count s).cmd = s.cmd := rfl
@[simp] theorem dispatchCompress_din : (dispatchCompress p src blocks count s).din = s.din := rfl
@[simp] theorem dispatchCompress_rsp : (dispatchCompress p src blocks count s).rsp = s.rsp := rfl
@[simp] theorem dispatchCompress_dout : (dispatchCompress p src blocks count s).dout = s.dout := rfl
@[simp] theorem dispatchCompress_trace : (dispatchCompress p src blocks count s).trace = s.trace ++ [.compress src count blocks] := rfl
end

section
variable (p : Params) (s : State)
@[simp] theorem compressPend_state : (compressPend p s).state = compressN p s.state (readPend s 0 p.blockSize) 1 := rfl
@[simp] theorem compressPend_bitlenLo : (compressPend p s).bitlenLo = s.bitlenLo := rfl
@[simp] theorem compressPend_bitlenHi : (compressPend p s).bitlenHi = s.bitlenHi := rfl
@[simp] theorem compressPend_pending : (compressPend p s).pending = s.pending := rfl
@[simp] theorem compressPend_pendingLen : (compressPend p s).pendingLen = s.pendingLen := rfl
@[simp] theorem compressPend_phase : (compressPend p s).phase = s.phase := rfl
@[simp] theorem compressPend_faultCode : (compressPend p s).faultCode = s.faultCode := rfl
@[simp] theorem compressPend_cmd : (compressPend p s).cmd = s.cmd := rfl
@[simp] theorem compressPend_din : (compressPend p s).din = s.din := rfl
@[simp] theorem compressPend_rsp : (compressPend p s).rsp = s.rsp := rfl
@[simp] theorem compressPend_dout : (compressPend p s).dout = s.dout := rfl
@[simp] theorem compressPend_trace : (compressPend p s).trace = s.trace ++ [.compress .pend 1 (readPend s 0 p.blockSize)] := rfl
end

section
variable (f : CoreFault) (s : State)
@[simp] theorem takeFault_state : (takeFault f s).state = s.state := rfl
@[simp] theorem takeFault_bitlenLo : (takeFault f s).bitlenLo = s.bitlenLo := rfl
@[simp] theorem takeFault_bitlenHi : (takeFault f s).bitlenHi = s.bitlenHi := rfl
@[simp] theorem takeFault_pending : (takeFault f s).pending = s.pending := rfl
@[simp] theorem takeFault_pendingLen : (takeFault f s).pendingLen = s.pendingLen := rfl
@[simp] theorem takeFault_phase : (takeFault f s).phase = .fault := rfl
@[simp] theorem takeFault_faultCode : (takeFault f s).faultCode = if s.faultCode = 0 then f.code else s.faultCode := rfl
@[simp] theorem takeFault_cmd : (takeFault f s).cmd = s.cmd := rfl
@[simp] theorem takeFault_din : (takeFault f s).din = s.din := rfl
@[simp] theorem takeFault_rsp : (takeFault f s).rsp = s.rsp ++ [f.code] := rfl
@[simp] theorem takeFault_dout : (takeFault f s).dout = s.dout := rfl
@[simp] theorem takeFault_trace : (takeFault f s).trace = s.trace := rfl
end

section
variable (len : Nat) (s : State)
@[simp] theorem advanceBitlen_state : (advanceBitlen len s).state = s.state := rfl
@[simp] theorem advanceBitlen_bitlenLo : (advanceBitlen len s).bitlenLo = (bitlenAdd s.bitlenLo s.bitlenHi len).1 := rfl
@[simp] theorem advanceBitlen_bitlenHi : (advanceBitlen len s).bitlenHi = (bitlenAdd s.bitlenLo s.bitlenHi len).2 := rfl
@[simp] theorem advanceBitlen_pending : (advanceBitlen len s).pending = s.pending := rfl
@[simp] theorem advanceBitlen_pendingLen : (advanceBitlen len s).pendingLen = s.pendingLen := rfl
@[simp] theorem advanceBitlen_phase : (advanceBitlen len s).phase = s.phase := rfl
@[simp] theorem advanceBitlen_faultCode : (advanceBitlen len s).faultCode = s.faultCode := rfl
@[simp] theorem advanceBitlen_cmd : (advanceBitlen len s).cmd = s.cmd := rfl
@[simp] theorem advanceBitlen_din : (advanceBitlen len s).din = s.din := rfl
@[simp] theorem advanceBitlen_rsp : (advanceBitlen len s).rsp = s.rsp := rfl
@[simp] theorem advanceBitlen_dout : (advanceBitlen len s).dout = s.dout := rfl
@[simp] theorem advanceBitlen_trace : (advanceBitlen len s).trace = s.trace := rfl
end

section
variable (rest : List Word) (s : State)
@[simp] theorem afterWords_state : (afterWords rest s).state = s.state := rfl
@[simp] theorem afterWords_bitlenLo : (afterWords rest s).bitlenLo = s.bitlenLo := rfl
@[simp] theorem afterWords_bitlenHi : (afterWords rest s).bitlenHi = s.bitlenHi := rfl
@[simp] theorem afterWords_pending : (afterWords rest s).pending = s.pending := rfl
@[simp] theorem afterWords_pendingLen : (afterWords rest s).pendingLen = s.pendingLen := rfl
@[simp] theorem afterWords_phase : (afterWords rest s).phase = s.phase := rfl
@[simp] theorem afterWords_faultCode : (afterWords rest s).faultCode = s.faultCode := rfl
@[simp] theorem afterWords_cmd : (afterWords rest s).cmd = rest := rfl
@[simp] theorem afterWords_din : (afterWords rest s).din = s.din := rfl
@[simp] theorem afterWords_rsp : (afterWords rest s).rsp = s.rsp := rfl
@[simp] theorem afterWords_dout : (afterWords rest s).dout = s.dout := rfl
@[simp] theorem afterWords_trace : (afterWords rest s).trace = s.trace := rfl
end

section
variable (n : Nat) (data : List Byte) (s : State)
@[simp] theorem fillOnly_state : (fillOnly n data s).state = s.state := rfl
@[simp] theorem fillOnly_bitlenLo : (fillOnly n data s).bitlenLo = s.bitlenLo := rfl
@[simp] theorem fillOnly_bitlenHi : (fillOnly n data s).bitlenHi = s.bitlenHi := rfl
@[simp] theorem fillOnly_pending : (fillOnly n data s).pending = Memory.writeBytes s.pending n data := rfl
@[simp] theorem fillOnly_pendingLen : (fillOnly n data s).pendingLen = BitVec.ofNat 32 (n + data.length) := rfl
@[simp] theorem fillOnly_phase : (fillOnly n data s).phase = s.phase := rfl
@[simp] theorem fillOnly_faultCode : (fillOnly n data s).faultCode = s.faultCode := rfl
@[simp] theorem fillOnly_cmd : (fillOnly n data s).cmd = s.cmd := rfl
@[simp] theorem fillOnly_din : (fillOnly n data s).din = s.din := rfl
@[simp] theorem fillOnly_rsp : (fillOnly n data s).rsp = s.rsp := rfl
@[simp] theorem fillOnly_dout : (fillOnly n data s).dout = s.dout := rfl
@[simp] theorem fillOnly_trace : (fillOnly n data s).trace = s.trace := rfl
end

section
variable (p : Params) (s : State)
@[simp] theorem clearTail_state : (clearTail p s).state = s.state := rfl
@[simp] theorem clearTail_bitlenLo : (clearTail p s).bitlenLo = 0 := rfl
@[simp] theorem clearTail_bitlenHi : (clearTail p s).bitlenHi = 0 := rfl
@[simp] theorem clearTail_pending : (clearTail p s).pending = Memory.writeBytes s.pending 0 (zeros p.blockSize) := rfl
@[simp] theorem clearTail_pendingLen : (clearTail p s).pendingLen = 0 := rfl
@[simp] theorem clearTail_phase : (clearTail p s).phase = s.phase := rfl
@[simp] theorem clearTail_faultCode : (clearTail p s).faultCode = s.faultCode := rfl
@[simp] theorem clearTail_cmd : (clearTail p s).cmd = s.cmd := rfl
@[simp] theorem clearTail_din : (clearTail p s).din = s.din := rfl
@[simp] theorem clearTail_rsp : (clearTail p s).rsp = s.rsp := rfl
@[simp] theorem clearTail_dout : (clearTail p s).dout = s.dout := rfl
@[simp] theorem clearTail_trace : (clearTail p s).trace = s.trace := rfl
end

section
variable (p : Params) (s : State)
@[simp] theorem serializeOut_out : (serializeOut p s).1 = p.serialize s.state := rfl
@[simp] theorem serializeOut_trace :
    (serializeOut p s).2.trace = s.trace ++ [.serialize s.state (p.serialize s.state)] := rfl
@[simp] theorem serializeOut_state : (serializeOut p s).2.state = s.state := rfl
@[simp] theorem serializeOut_bitlenLo : (serializeOut p s).2.bitlenLo = s.bitlenLo := rfl
@[simp] theorem serializeOut_bitlenHi : (serializeOut p s).2.bitlenHi = s.bitlenHi := rfl
@[simp] theorem serializeOut_pending : (serializeOut p s).2.pending = s.pending := rfl
@[simp] theorem serializeOut_pendingLen : (serializeOut p s).2.pendingLen = s.pendingLen := rfl
@[simp] theorem serializeOut_phase : (serializeOut p s).2.phase = s.phase := rfl
@[simp] theorem serializeOut_faultCode : (serializeOut p s).2.faultCode = s.faultCode := rfl
@[simp] theorem serializeOut_cmd : (serializeOut p s).2.cmd = s.cmd := rfl
@[simp] theorem serializeOut_din : (serializeOut p s).2.din = s.din := rfl
@[simp] theorem serializeOut_rsp : (serializeOut p s).2.rsp = s.rsp := rfl
@[simp] theorem serializeOut_dout : (serializeOut p s).2.dout = s.dout := rfl
end

section
variable (p : Params) (s : State)
@[simp] theorem finishOutput_state : (finishOutput p s).state = s.state := rfl
@[simp] theorem finishOutput_bitlenLo : (finishOutput p s).bitlenLo = s.bitlenLo := rfl
@[simp] theorem finishOutput_bitlenHi : (finishOutput p s).bitlenHi = s.bitlenHi := rfl
@[simp] theorem finishOutput_pending : (finishOutput p s).pending = s.pending := rfl
@[simp] theorem finishOutput_pendingLen : (finishOutput p s).pendingLen = s.pendingLen := rfl
@[simp] theorem finishOutput_phase : (finishOutput p s).phase = .final := rfl
@[simp] theorem finishOutput_faultCode : (finishOutput p s).faultCode = s.faultCode := rfl
@[simp] theorem finishOutput_cmd : (finishOutput p s).cmd = s.cmd := rfl
@[simp] theorem finishOutput_din : (finishOutput p s).din = s.din := rfl
@[simp] theorem finishOutput_rsp : (finishOutput p s).rsp = s.rsp := rfl
@[simp] theorem finishOutput_dout : (finishOutput p s).dout = s.dout ++ p.serialize s.state := rfl
@[simp] theorem finishOutput_trace : (finishOutput p s).trace = s.trace ++ [.serialize s.state (p.serialize s.state)] := rfl
end

/-- Two states with equal fields are equal. -/
@[ext] theorem State.ext_fields {s t : State} (h1 : s.state = t.state) (h2 : s.bitlenLo = t.bitlenLo)
    (h3 : s.bitlenHi = t.bitlenHi) (h4 : s.pending = t.pending) (h5 : s.pendingLen = t.pendingLen)
    (h6 : s.phase = t.phase) (h7 : s.faultCode = t.faultCode) (h8 : s.cmd = t.cmd) (h9 : s.din = t.din)
    (h10 : s.rsp = t.rsp) (h11 : s.dout = t.dout) (h12 : s.trace = t.trace) : s = t := by
  cases s; cases t; simp_all

end Sys2Proof.Machine
end

