-- ==== Sys2Proof/Laws/Ops.lean ====
section
/-! SUPPORT. What each shared operation does, said once: the payload, the dispatches, the zeroed buffer, and the shape
of the context, which every operation keeps. -/

namespace Sys2Proof.Machine

/-- A complete payload is taken from `DIN` (30_encoding R85, R96). -/
theorem takePayload_complete {n : Nat} {s : State} (h : n ≤ s.din.length) :
    takePayload n s = some (s.din.take n, afterPayload n s) := if_pos h

/-- An incomplete payload is not (30_encoding R86). -/
theorem takePayload_incomplete {n : Nat} {s : State} (h : s.din.length < n) : takePayload n s = none :=
  if_neg (by omega)

section
variable (n : Nat) (s : State)
@[simp] theorem afterPayload_state : (afterPayload n s).state = s.state := rfl
@[simp] theorem afterPayload_bitlenLo : (afterPayload n s).bitlenLo = s.bitlenLo := rfl
@[simp] theorem afterPayload_bitlenHi : (afterPayload n s).bitlenHi = s.bitlenHi := rfl
@[simp] theorem afterPayload_pending : (afterPayload n s).pending = s.pending := rfl
@[simp] theorem afterPayload_pendingLen : (afterPayload n s).pendingLen = s.pendingLen := rfl
@[simp] theorem afterPayload_phase : (afterPayload n s).phase = s.phase := rfl
@[simp] theorem afterPayload_faultCode : (afterPayload n s).faultCode = s.faultCode := rfl
@[simp] theorem afterPayload_cmd : (afterPayload n s).cmd = s.cmd := rfl
@[simp] theorem afterPayload_din : (afterPayload n s).din = s.din.drop n := rfl
@[simp] theorem afterPayload_rsp : (afterPayload n s).rsp = s.rsp := rfl
@[simp] theorem afterPayload_dout : (afterPayload n s).dout = s.dout := rfl
@[simp] theorem afterPayload_trace : (afterPayload n s).trace = s.trace := rfl
theorem afterPayload_zero : afterPayload 0 s = s := rfl
end

/-- Taking a fault is `faulted` at the fault's code (60_exceptions R243). -/
theorem takeFault_eq_faulted (f : CoreFault) (s : State) : takeFault f s = faulted f.code s := rfl

/-- The four commands with a payload, complete or not, and what they answer. -/
theorem exec_absorb {len : BitVec 64} {s : State} (h : len.toNat ≤ s.din.length) :
    exec (.absorb len) s =
      .next (absorbBody Config.params (s.din.take len.toNat) (afterPayload len.toNat s)) := by
  show absorbCommand _ _ _ = _
  rw [absorbCommand, takePayload_complete h]

theorem exec_absorb_short {len : BitVec 64} {s : State} (h : s.din.length < len.toNat) :
    exec (.absorb len) s = .fault .awaitingPayload := by
  show absorbCommand _ _ _ = _
  rw [absorbCommand, takePayload_incomplete h]

theorem exec_transform {s : State} (h : Config.params.blockSize ≤ s.din.length) :
    exec .transform s =
      .next (transformBody Config.params (s.din.take Config.params.blockSize)
        (afterPayload Config.params.blockSize s)) := by
  show transformCommand _ _ = _
  rw [transformCommand, takePayload_complete h]

theorem exec_transform_short {s : State} (h : s.din.length < Config.params.blockSize) :
    exec .transform s = .fault .awaitingPayload := by
  show transformCommand _ _ = _
  rw [transformCommand, takePayload_incomplete h]

theorem exec_b2w {s : State} (h : 4 ≤ s.din.length) :
    exec .b2w s = .next (b2wBody Config.params (s.din.take 4) (afterPayload 4 s)) := by
  show b2wCommand _ _ = _
  rw [b2wCommand, takePayload_complete h]

theorem exec_b2w_short {s : State} (h : s.din.length < 4) : exec .b2w s = .fault .awaitingPayload := by
  show b2wCommand _ _ = _
  rw [b2wCommand, takePayload_incomplete h]

theorem exec_init (s : State) : exec .init s = .next (initBody Config.params s) := rfl

theorem exec_finalize (s : State) : exec .finalize s = .next (finalizeBody Config.params s) := rfl

theorem exec_ctxrd (idx : BitVec 16) (s : State) : exec (.ctxrd idx) s = .next (ctxrdBody Config.params idx s) := rfl

theorem exec_ctxwr (idx : BitVec 16) (v : Word) (s : State) :
    exec (.ctxwr idx v) s = .next (ctxwrBody Config.params idx v s) := rfl

theorem exec_w2b (w : Word) (s : State) : exec (.w2b w) s = .next (w2bBody Config.params w s) := rfl

/-! ### What a command answers when it answers -/

/-- The core after a command on its payload: the body of each command. -/
def commandBody (p : Params) (i : Instr) (payload : List Byte) (s : State) : State :=
  match i with
  | .init => initBody p s
  | .absorb _ => absorbBody p payload s
  | .transform => transformBody p payload s
  | .finalize => finalizeBody p s
  | .ctxrd idx => ctxrdBody p idx s
  | .ctxwr idx v => ctxwrBody p idx v s
  | .b2w => b2wBody p payload s
  | .w2b w => w2bBody p w s

/-- Every command, at once: with its payload complete it answers the next state of its body, the payload taken first. -/
theorem exec_complete {i : Instr} {s : State} (h : i.payloadLen Config.params.blockSize ≤ s.din.length) :
    exec i s =
      .next (commandBody Config.params i (s.din.take (i.payloadLen Config.params.blockSize))
        (afterPayload (i.payloadLen Config.params.blockSize) s)) := by
  cases i with
  | init => rfl
  | absorb len => exact exec_absorb h
  | transform => exact exec_transform h
  | finalize => rfl
  | ctxrd idx => rfl
  | ctxwr idx v => rfl
  | b2w => exact exec_b2w h
  | w2b w => rfl

/-- With its payload incomplete a command waits. -/
theorem exec_incomplete {i : Instr} {s : State} (h : s.din.length < i.payloadLen Config.params.blockSize) :
    exec i s = .fault .awaitingPayload := by
  cases i with
  | init => exact absurd h (Nat.not_lt_zero _)
  | absorb len => exact exec_absorb_short h
  | transform => exact exec_transform_short h
  | finalize => exact absurd h (Nat.not_lt_zero _)
  | ctxrd idx => exact absurd h (Nat.not_lt_zero _)
  | ctxwr idx v => exact absurd h (Nat.not_lt_zero _)
  | b2w => exact exec_b2w_short h
  | w2b w => exact absurd h (Nat.not_lt_zero _)

/-- The inversion of `exec`: if it answers a next state, the payload was complete and the state is the body's. -/
theorem exec_next {i : Instr} {s t : State} (h : exec i s = .next t) :
    i.payloadLen Config.params.blockSize ≤ s.din.length ∧
      t = commandBody Config.params i (s.din.take (i.payloadLen Config.params.blockSize))
        (afterPayload (i.payloadLen Config.params.blockSize) s) := by
  by_cases hc : i.payloadLen Config.params.blockSize ≤ s.din.length
  · rw [exec_complete hc] at h
    exact ⟨hc, by cases h; rfl⟩
  · rw [exec_incomplete (by omega)] at h
    cases h

/-- The inversion of `step`: a next state is a command's or an illegal word's. -/
theorem step_next {s t : State} (h : step s = .next t) :
    (∃ i rest, decode s.cmd = .instr i rest ∧ exec i (afterWords rest s) = .next t) ∨
      ∃ cw rest, decode s.cmd = .illegal cw rest ∧ t = faulted 1 (afterWords rest s) := by
  rw [step] at h
  split at h
  · exact .inl ⟨_, _, by assumption, h⟩
  · cases h; exact .inr ⟨_, _, by assumption, rfl⟩
  · cases h
  · cases h

/-! ### The shape of the context is kept -/

theorem compressN_length {p : Params} (hp : p.Lawful) {s : List Word} (hs : s.length = p.stateWords)
    (blocks : List Byte) (count : Nat) : (compressN p s blocks count).length = p.stateWords := by
  induction count generalizing s blocks with
  | zero => exact hs
  | succ n ih => exact ih (hp.compress_length _ _) _

section
variable {p : Params} {s : State}

theorem Shape.afterPayload (h : Shape p s) (n : Nat) : Shape p (afterPayload n s) :=
  ⟨h.stateLength, h.pendingWf, h.pendingWithin, h.faultRecorded⟩

theorem Shape.afterWords (h : Shape p s) (rest : List Word) : Shape p (afterWords rest s) :=
  ⟨h.stateLength, h.pendingWf, h.pendingWithin, h.faultRecorded⟩

theorem Shape.respond (h : Shape p s) (ws : List Word) : Shape p (respond ws s) :=
  ⟨h.stateLength, h.pendingWf, h.pendingWithin, h.faultRecorded⟩

theorem Shape.respondOk (h : Shape p s) : Shape p (respondOk s) := h.respond _

theorem Shape.respondData (h : Shape p s) (w : Word) : Shape p (respondData w s) := h.respond _

theorem Shape.emit (h : Shape p s) (v : List Byte) : Shape p (emit v s) :=
  ⟨h.stateLength, h.pendingWf, h.pendingWithin, h.faultRecorded⟩

theorem Shape.advanceBitlen (h : Shape p s) (len : Nat) : Shape p (advanceBitlen len s) :=
  ⟨h.stateLength, h.pendingWf, h.pendingWithin, h.faultRecorded⟩

theorem Shape.writePend (h : Shape p s) {off : Nat} {v : List Byte} (hv : off + v.length ≤ p.blockSize) :
    Shape p (writePend off v s) :=
  ⟨h.stateLength, Memory.writeBytes_wf h.pendingWf _ _, Memory.writeBytes_within h.pendingWithin _ _ hv,
    h.faultRecorded⟩

theorem Shape.dispatchCompress (hp : p.Lawful) (h : Shape p s) (src : Source) (blocks : List Byte) (count : Nat) :
    Shape p (dispatchCompress p src blocks count s) :=
  ⟨compressN_length hp h.stateLength _ _, h.pendingWf, h.pendingWithin, h.faultRecorded⟩

theorem Shape.compressPend (hp : p.Lawful) (h : Shape p s) : Shape p (compressPend p s) :=
  h.dispatchCompress hp _ _ _

theorem Shape.takeFault (h : Shape p s) (f : CoreFault) : Shape p (takeFault f s) := by
  refine ⟨h.stateLength, h.pendingWf, h.pendingWithin, ?_⟩
  have hc : f.code ≠ 0 := by cases f <;> simp [CoreFault.code]
  simp only [takeFault_faultCode, takeFault_phase, ne_eq, not_true_eq_false, iff_false]
  split <;> assumption

/-- Zeroing the buffer leaves no cell: every byte reads as zero. -/
theorem zeroPend_pending_nil (h : Shape p s) : (zeroPend p s).pending = [] :=
  Memory.writeBytes_zeros h.pendingWf h.pendingWithin

end

/-- A block dispatched from the buffer is the buffer, and the next state word for word `F` of it (46_plugin R220,
R221). -/
theorem compressN_one (p : Params) (s : List Word) (b : List Byte) (h : b.length = p.blockSize) :
    compressN p s b 1 = p.compress s b := by
  show p.compress s (b.take p.blockSize) = _
  rw [List.take_of_length_le (by omega)]

/-- The first block of a run (46_plugin R222). -/
theorem compressN_block {p : Params} {b : List Byte} (h : b.length = p.blockSize) (s : List Word) (rest : List Byte)
    (k : Nat) : compressN p s (b ++ rest) (k + 1) = compressN p (p.compress s b) rest k := by
  rw [compressN, ← h, List.take_left, List.drop_left]

end Sys2Proof.Machine
end

