-- ==== Sys2Proof/Laws/Absorb.lean ====
section
/-! SUPPORT. What the branches of `ABSORB` do (spec 41_absorb R119 to R123), each said once, and what they do together:
`Absorbed` in terms of the stream "buffered tail, then data". -/

namespace Sys2Proof.Machine

theorem word_toNat_ofNat {k : Nat} (h : k < 2 ^ 32) : (BitVec.ofNat 32 k).toNat = k := by
  rw [BitVec.toNat_ofNat, Nat.mod_eq_of_lt h]

@[simp] theorem tailBytes_length (s : State) : (tailBytes s).length = s.pendingLen.toNat :=
  Memory.readBytes_length _ _ _

/-- The dispatch of the whole blocks of a run of input, if there is one (R122). -/
def bulkEvents (p : Params) (data : List Byte) : List Event :=
  if p.blockSize ≤ data.length then
    [.compress .input (data.length / p.blockSize) (data.take (data.length / p.blockSize * p.blockSize))]
  else []

/-- The dispatches of one `ABSORB` of `data` behind the buffered tail `T` (R126). -/
def absorbEvents (p : Params) (T data : List Byte) : List Event :=
  if T = [] then bulkEvents p data
  else if p.blockSize ≤ T.length + data.length then
    .compress .pend 1 (T ++ data.take (p.blockSize - T.length)) :: bulkEvents p (data.drop (p.blockSize - T.length))
  else []

/-- What accumulating `data` does to a context, in terms of the stream `tailBytes s ++ data`. -/
structure Absorbed (p : Params) (s : State) (data : List Byte) (t : State) : Prop where
  pendingLen : t.pendingLen.toNat = (s.pendingLen.toNat + data.length) % p.blockSize
  tail : tailBytes t =
    (tailBytes s ++ data).drop (p.blockSize * ((s.pendingLen.toNat + data.length) / p.blockSize))
  beyond : InvZero p s → InvZero p t
  state : t.state =
    compressN p s.state
      ((tailBytes s ++ data).take (p.blockSize * ((s.pendingLen.toNat + data.length) / p.blockSize)))
      ((s.pendingLen.toNat + data.length) / p.blockSize)
  trace : t.trace = s.trace ++ absorbEvents p (tailBytes s) data
  shape : Shape p t

/-- The fields that accumulating does not touch. -/
structure SamePorts (s t : State) : Prop where
  bitlenLo : t.bitlenLo = s.bitlenLo
  bitlenHi : t.bitlenHi = s.bitlenHi
  phase : t.phase = s.phase
  faultCode : t.faultCode = s.faultCode
  cmd : t.cmd = s.cmd
  din : t.din = s.din
  rsp : t.rsp = s.rsp
  dout : t.dout = s.dout

theorem SamePorts.trans {s t u : State} (h : SamePorts s t) (k : SamePorts t u) : SamePorts s u :=
  ⟨k.bitlenLo.trans h.bitlenLo, k.bitlenHi.trans h.bitlenHi, k.phase.trans h.phase, k.faultCode.trans h.faultCode,
    k.cmd.trans h.cmd, k.din.trans h.din, k.rsp.trans h.rsp, k.dout.trans h.dout⟩

theorem bulkDispatch_samePorts (p : Params) (data : List Byte) (s : State) : SamePorts s (bulkDispatch p data s) := by
  unfold bulkDispatch
  dsimp only
  split <;> exact ⟨rfl, rfl, rfl, rfl, rfl, rfl, rfl, rfl⟩

theorem storeRemainder_samePorts (rest : List Byte) (s : State) : SamePorts s (storeRemainder rest s) := by
  unfold storeRemainder
  split <;> exact ⟨rfl, rfl, rfl, rfl, rfl, rfl, rfl, rfl⟩

theorem bulkAndRemainder_samePorts (p : Params) (data : List Byte) (s : State) :
    SamePorts s (bulkAndRemainder p data s) :=
  (bulkDispatch_samePorts p data s).trans (storeRemainder_samePorts _ _)

theorem accumulate_samePorts (p : Params) (n : Nat) (data : List Byte) (s : State) :
    SamePorts s (accumulate p n data s) := by
  unfold accumulate
  split
  · exact bulkAndRemainder_samePorts p data s
  · split
    · exact SamePorts.trans (t := completeAndDrain p n data s) ⟨rfl, rfl, rfl, rfl, rfl, rfl, rfl, rfl⟩
        (bulkAndRemainder_samePorts p _ _)
    · exact ⟨rfl, rfl, rfl, rfl, rfl, rfl, rfl, rfl⟩

/-- A division with remainder, in the form the whole blocks and the rest are measured in. -/
theorem blocks_add_rest (n B : Nat) : n / B * B + n % B = n := by
  rw [Nat.mul_comm]; exact Nat.div_add_mod n B

theorem drop_append_add {α : Type} (x y : List α) (k : Nat) : (x ++ y).drop (x.length + k) = y.drop k := by
  simp [List.drop_append]

theorem take_append_add {α : Type} (x y : List α) (k : Nat) : (x ++ y).take (x.length + k) = x ++ y.take k := by
  simp [List.take_append]

section
variable {p : Params} {s : State}

/-- Bulk dispatch (R122): the state is `F` over the whole blocks, and one event if there is one. -/
theorem bulkDispatch_state (hB : 0 < p.blockSize) (data : List Byte) :
    (bulkDispatch p data s).state =
      compressN p s.state (data.take (data.length / p.blockSize * p.blockSize)) (data.length / p.blockSize) ∧
    (bulkDispatch p data s).trace = s.trace ++ bulkEvents p data ∧
    (bulkDispatch p data s).pending = s.pending ∧ (bulkDispatch p data s).pendingLen = s.pendingLen := by
  have hiff : 1 ≤ data.length / p.blockSize ↔ p.blockSize ≤ data.length := by
    rw [Nat.le_div_iff_mul_le hB, Nat.one_mul]
  unfold bulkDispatch bulkEvents
  dsimp only
  by_cases h : p.blockSize ≤ data.length
  · rw [if_pos (hiff.2 h), if_pos h]
    exact ⟨rfl, rfl, rfl, rfl⟩
  · rw [if_neg (fun k => h (hiff.1 k)), if_neg h, Nat.div_eq_of_lt (by omega)]
    exact ⟨rfl, by simp, rfl, rfl⟩

theorem Shape.bulkDispatch (hp : p.Lawful) (h : Shape p s) (data : List Byte) : Shape p (bulkDispatch p data s) := by
  unfold Sys2Proof.Machine.bulkDispatch
  dsimp only
  split
  · exact h.dispatchCompress hp _ _ _
  · exact h

/-- Remainder (R123), into an empty buffer: the tail is the rest, every other byte reads as before. -/
theorem storeRemainder_spec (hp : p.Lawful) (h : Shape p s) (hn : s.pendingLen = 0) {rest : List Byte}
    (hr : rest.length < p.blockSize) :
    (storeRemainder rest s).pendingLen.toNat = rest.length ∧ tailBytes (storeRemainder rest s) = rest ∧
      (∀ a, rest.length ≤ a → Memory.read (storeRemainder rest s).pending a = Memory.read s.pending a) ∧
      (storeRemainder rest s).state = s.state ∧ (storeRemainder rest s).trace = s.trace ∧
      Shape p (storeRemainder rest s) := by
  have hB := hp.blockSize_le
  unfold storeRemainder
  split
  · rename_i h0
    obtain rfl : rest = [] := List.length_eq_zero_iff.1 h0
    exact ⟨by simp [hn], by simp [tailBytes, hn, readPend], fun a _ => rfl, rfl, rfl, h⟩
  · have hlen : (BitVec.ofNat 32 rest.length).toNat = rest.length := word_toNat_ofNat (by omega)
    refine ⟨hlen, ?_, ?_, rfl, rfl, ?_⟩
    · show Memory.readBytes (Memory.writeBytes s.pending 0 rest) 0 (BitVec.ofNat 32 rest.length).toNat = rest
      rw [hlen]
      exact Memory.readBytes_writeBytes_same h.pendingWf 0 rest
    · intro a ha
      show Memory.read (Memory.writeBytes s.pending 0 rest) a = _
      rw [Memory.read_writeBytes h.pendingWf, if_neg (by omega)]
    · have := h.writePend (off := 0) (v := rest) (by omega)
      exact ⟨this.stateLength, this.pendingWf, this.pendingWithin, this.faultRecorded⟩

/-- Bulk dispatch and remainder (R122, R123), into an empty buffer. -/
theorem bulkAndRemainder_spec (hp : p.Lawful) (h : Shape p s) (hn : s.pendingLen = 0) (data : List Byte) :
    Absorbed p s data (bulkAndRemainder p data s) := by
  have hB := hp.blockSize_ge
  obtain ⟨b1, b2, b3, b4⟩ := bulkDispatch_state (s := s) (p := p) (by omega) data
  have hmod := blocks_add_rest data.length p.blockSize
  have hlt : data.length % p.blockSize < p.blockSize := Nat.mod_lt _ (by omega)
  have hrest : (data.drop (data.length / p.blockSize * p.blockSize)).length = data.length % p.blockSize := by
    rw [List.length_drop]; omega
  have htail : tailBytes s = [] := by simp [tailBytes, hn, readPend]
  obtain ⟨r1, r2, r3, r4, r5, r6⟩ := storeRemainder_spec hp (h.bulkDispatch hp data) (b4.trans hn)
    (rest := data.drop (data.length / p.blockSize * p.blockSize)) (by omega)
  rw [hrest] at r1 r3
  have hz : s.pendingLen.toNat = 0 := by simp [hn]
  refine ⟨?_, ?_, ?_, ?_, ?_, r6⟩
  · rw [hz, Nat.zero_add]; exact r1
  · rw [hz, Nat.zero_add, htail, List.nil_append, Nat.mul_comm]; exact r2
  · intro hi j hj1 hj2
    rw [bulkAndRemainder, r1] at hj1
    rw [bulkAndRemainder, r3 j hj1, b3]
    exact hi j (by omega) hj2
  · rw [hz, Nat.zero_add, htail, List.nil_append, Nat.mul_comm p.blockSize]
    exact r4.trans b1
  · rw [htail, absorbEvents, if_pos rfl]
    exact r5.trans b2

/-- Fill-only (R120): the tail grows by the data, every byte outside the stored ones reads as before. -/
theorem fillOnly_spec (hp : p.Lawful) (h : Shape p s) {data : List Byte}
    (hf : s.pendingLen.toNat + data.length < p.blockSize) :
    (fillOnly s.pendingLen.toNat data s).pendingLen.toNat = s.pendingLen.toNat + data.length ∧
      tailBytes (fillOnly s.pendingLen.toNat data s) = tailBytes s ++ data ∧
      (∀ a, Memory.read (fillOnly s.pendingLen.toNat data s).pending a =
        if s.pendingLen.toNat ≤ a ∧ a < s.pendingLen.toNat + data.length then data.getD (a - s.pendingLen.toNat) 0
        else Memory.read s.pending a) ∧
      Shape p (fillOnly s.pendingLen.toNat data s) := by
  have hB := hp.blockSize_le
  have hlen : (BitVec.ofNat 32 (s.pendingLen.toNat + data.length)).toNat = s.pendingLen.toNat + data.length :=
    word_toNat_ofNat (by omega)
  refine ⟨hlen, ?_, fun a => Memory.read_writeBytes h.pendingWf _ _ _, ?_⟩
  · show Memory.readBytes (Memory.writeBytes s.pending s.pendingLen.toNat data) 0
      (BitVec.ofNat 32 (s.pendingLen.toNat + data.length)).toNat = Memory.readBytes s.pending 0 s.pendingLen.toNat ++ data
    rw [hlen, Memory.readBytes_writeBytes_upto h.pendingWf]
  · have := h.writePend (off := s.pendingLen.toNat) (v := data) (by omega)
    exact ⟨this.stateLength, this.pendingWf, this.pendingWithin, this.faultRecorded⟩

/-- Complete-and-drain (R121): the completed block is the tail and the first `B - n` bytes; the buffer is empty
afterwards. -/
theorem completeAndDrain_spec (hp : p.Lawful) (h : Shape p s) (hi : InvLen p s) {data : List Byte}
    (hf : p.blockSize ≤ s.pendingLen.toNat + data.length) :
    let block := tailBytes s ++ data.take (p.blockSize - s.pendingLen.toNat)
    let t := completeAndDrain p s.pendingLen.toNat data s
    block.length = p.blockSize ∧ t.state = p.compress s.state block ∧
      t.trace = s.trace ++ [.compress .pend 1 block] ∧ t.pending = [] ∧ t.pendingLen = 0 ∧ Shape p t := by
  intro block t
  have hlen : (data.take (p.blockSize - s.pendingLen.toNat)).length = p.blockSize - s.pendingLen.toNat := by
    rw [List.length_take]; omega
  have hblock : block.length = p.blockSize := by
    show (tailBytes s ++ data.take (p.blockSize - s.pendingLen.toNat)).length = _
    rw [List.length_append, hlen, tailBytes_length]
    have : s.pendingLen.toNat < p.blockSize := hi
    omega
  have hw : Shape p (writePend s.pendingLen.toNat (data.take (p.blockSize - s.pendingLen.toNat)) s) :=
    h.writePend (by have : s.pendingLen.toNat < p.blockSize := hi; omega)
  have hread : readPend (writePend s.pendingLen.toNat (data.take (p.blockSize - s.pendingLen.toNat)) s) 0 p.blockSize =
      block := by
    show Memory.readBytes (Memory.writeBytes s.pending s.pendingLen.toNat _) 0 p.blockSize = _
    have hsum : s.pendingLen.toNat + (data.take (p.blockSize - s.pendingLen.toNat)).length = p.blockSize := by
      have : s.pendingLen.toNat < p.blockSize := hi
      omega
    have e := Memory.readBytes_writeBytes_upto h.pendingWf s.pendingLen.toNat
      (data.take (p.blockSize - s.pendingLen.toNat))
    rw [hsum] at e
    exact e
  have hpend : t.pending = [] := zeroPend_pending_nil (hw.compressPend hp)
  refine ⟨hblock, ?_, ?_, hpend, rfl, ?_⟩
  · show compressN p s.state (readPend _ 0 p.blockSize) 1 = _
    rw [hread, compressN_one _ _ _ hblock]
  · show s.trace ++ [Event.compress .pend 1 (readPend _ 0 p.blockSize)] = _
    rw [hread]
  · refine ⟨(hw.compressPend hp).stateLength, ?_, ?_, h.faultRecorded⟩
    · rw [hpend]; exact Memory.wf_nil
    · rw [hpend]; intro c hc; simp at hc

/-- The three branches together (R119 to R123). -/
theorem accumulate_spec (hp : p.Lawful) (h : Shape p s) (hi : InvLen p s) (data : List Byte) :
    Absorbed p s data (accumulate p s.pendingLen.toNat data s) := by
  have hB := hp.blockSize_ge
  have hlt : s.pendingLen.toNat < p.blockSize := hi
  unfold accumulate
  split
  · rename_i h0
    exact bulkAndRemainder_spec hp h (BitVec.eq_of_toNat_eq h0) data
  · rename_i h0
    have hne : tailBytes s ≠ [] := by
      intro h; apply h0; rw [← tailBytes_length, h]; rfl
    split
    · rename_i hc
      obtain ⟨c1, c2, c3, c4, c5, c6⟩ := completeAndDrain_spec hp h hi hc
      have hk : (data.drop (p.blockSize - s.pendingLen.toNat)).length + p.blockSize =
          s.pendingLen.toNat + data.length := by rw [List.length_drop]; omega
      have hz : (completeAndDrain p s.pendingLen.toNat data s).pendingLen.toNat = 0 := by rw [c5]; rfl
      have htail : tailBytes (completeAndDrain p s.pendingLen.toNat data s) = [] := by
        simp [tailBytes, readPend, c5]
      have hdiv : (s.pendingLen.toNat + data.length) / p.blockSize =
          (data.drop (p.blockSize - s.pendingLen.toNat)).length / p.blockSize + 1 := by
        rw [← hk, Nat.add_div_right _ (by omega)]
      have hstream : tailBytes s ++ data =
          (tailBytes s ++ data.take (p.blockSize - s.pendingLen.toNat)) ++
            data.drop (p.blockSize - s.pendingLen.toNat) := by
        rw [List.append_assoc, List.take_append_drop]
      have hmul : p.blockSize * ((s.pendingLen.toNat + data.length) / p.blockSize) =
          (tailBytes s ++ data.take (p.blockSize - s.pendingLen.toNat)).length +
            p.blockSize * ((data.drop (p.blockSize - s.pendingLen.toNat)).length / p.blockSize) := by
        rw [hdiv, Nat.mul_succ, c1]; omega
      have b := bulkAndRemainder_spec hp c6 c5 (data.drop (p.blockSize - s.pendingLen.toNat))
      refine ⟨?_, ?_, ?_, ?_, ?_, b.shape⟩
      · rw [b.pendingLen, hz, Nat.zero_add, ← hk, Nat.add_mod_right]
      · rw [b.tail, htail, hz, Nat.zero_add, List.nil_append, hstream, hmul, drop_append_add]
      · intro _
        exact b.beyond fun j _ _ => by rw [c4]; rfl
      · rw [b.state, htail, hz, Nat.zero_add, List.nil_append, hstream, hmul, take_append_add,
          hdiv, compressN_block c1, c2]
      · rw [b.trace, c3, htail, absorbEvents, if_pos rfl, absorbEvents, if_neg hne,
          if_pos (by rw [tailBytes_length]; exact hc), tailBytes_length, List.append_assoc, List.singleton_append]
    · rename_i hc
      obtain ⟨f1, f2, f3, f4⟩ := fillOnly_spec hp h (data := data) (by omega)
      have hdiv : (s.pendingLen.toNat + data.length) / p.blockSize = 0 := Nat.div_eq_of_lt (by omega)
      refine ⟨?_, ?_, ?_, ?_, ?_, f4⟩
      · rw [f1, Nat.mod_eq_of_lt (by omega)]
      · rw [f2, hdiv, Nat.mul_zero, List.drop_zero]
      · intro hz j hj1 hj2
        rw [f1] at hj1
        rw [f3, if_neg (by omega)]
        exact hz j (by omega) hj2
      · rw [hdiv]; rfl
      · rw [absorbEvents, if_neg hne, if_neg (by rw [tailBytes_length]; omega), List.append_nil]; rfl

end

end Sys2Proof.Machine
end

