-- ==== Sys2Proof/Laws/Codec.lean ====
section
/-! SUPPORT. The codec in numbers (spec 44_codec R181, R182): the value of a composed word and of each emitted byte. -/

namespace Sys2Proof.Machine

@[simp] theorem bytesFromWord_length (o : ByteOrder) (w : Word) : (bytesFromWord o w).length = 4 := by
  cases o <;> rfl

/-- The byte of a word at bit `k`. -/
theorem extractByte_toNat (w : Word) (k : Nat) : (w.extractLsb' k 8).toNat = w.toNat / 2 ^ k % 2 ^ 8 := by
  rw [BitVec.extractLsb'_toNat, Nat.shiftRight_eq_div_pow]

/-- The byte of a word at bit `k`, as a byte. -/
theorem extractByte_eq (w : Word) (k : Nat) : w.extractLsb' k 8 = BitVec.ofNat 8 (w.toNat / 2 ^ k) := by
  apply BitVec.eq_of_toNat_eq
  rw [extractByte_toNat, BitVec.toNat_ofNat]

/-- The value `WordFromBytes` gives in `BIG` (R181). -/
theorem wordFromBytes_big_toNat (b0 b1 b2 b3 : Byte) (rest : List Byte) :
    (wordFromBytes .big (b0 :: b1 :: b2 :: b3 :: rest) 0).1.toNat =
      b0.toNat * 2 ^ 24 + b1.toNat * 2 ^ 16 + b2.toNat * 2 ^ 8 + b3.toNat := by
  have h0 := b0.isLt
  have h1 := b1.isLt
  have h2 := b2.isLt
  have h3 := b3.isLt
  show (BitVec.ofNat 32 (b0.toNat * 2 ^ 24 + b1.toNat * 2 ^ 16 + b2.toNat * 2 ^ 8 + b3.toNat)).toNat = _
  rw [BitVec.toNat_ofNat, Nat.mod_eq_of_lt]
  omega

/-- The value `WordFromBytes` gives in `LITTLE` (R181). -/
theorem wordFromBytes_little_toNat (b0 b1 b2 b3 : Byte) (rest : List Byte) :
    (wordFromBytes .little (b0 :: b1 :: b2 :: b3 :: rest) 0).1.toNat =
      b0.toNat + b1.toNat * 2 ^ 8 + b2.toNat * 2 ^ 16 + b3.toNat * 2 ^ 24 := by
  have h0 := b0.isLt
  have h1 := b1.isLt
  have h2 := b2.isLt
  have h3 := b3.isLt
  show (BitVec.ofNat 32 (b0.toNat + b1.toNat * 2 ^ 8 + b2.toNat * 2 ^ 16 + b3.toNat * 2 ^ 24)).toNat = _
  rw [BitVec.toNat_ofNat, Nat.mod_eq_of_lt]
  omega

end Sys2Proof.Machine
end

