-- ==== Sys2Proof/Laws/Context.lean ====
section
/-! SUPPORT. The context register map (spec 45_context R204, R205): which index names which register, and what reading
and writing a register does. -/

namespace Sys2Proof.Machine

section
variable {p : Params}

/-- Behind the eight scalars only the two windows are mapped (R204). -/
theorem ctxRegAt_window {k : Nat} (hk : 0x0007 < k) : ctxRegAt p k = ctxWindow p k := by
  have scalar : ∀ c, c ≤ 0x0007 → k ≠ c := fun c hc => by omega
  simp [ctxRegAt, scalar]

/-- A word of the `STATE` window (R204). -/
theorem ctxRegAt_state {i : Nat} (hi : i < p.stateWords) : ctxRegAt p (0x100 + i) = some (.stateWord i) := by
  simp [ctxRegAt_window (show 0x0007 < 0x100 + i by omega), ctxWindow, hi]

/-- A byte of the `PENDING` window (R204): `STATE_WORDS <= 256` keeps the windows apart. -/
theorem ctxRegAt_pending (hs : p.stateWords ≤ 256) {j : Nat} (hj : j < p.blockSize) :
    ctxRegAt p (0x200 + j) = some (.pendingByte j) := by
  have behind : ¬ 0x200 + j < 0x100 + p.stateWords := by omega
  simp [ctxRegAt_window (show 0x0007 < 0x200 + j by omega), ctxWindow, behind, hj]

/-- An index is unmapped exactly when the map of R204 does not list it. -/
theorem ctxRegAt_none (k : Nat) : ctxRegAt p k = none ↔ mappedIndex p k = false := by
  unfold ctxRegAt ctxWindow mappedIndex
  split_ifs <;> simp <;> omega

/-- The read/write registers of R204, by index. -/
theorem ctxRegAt_writable (k : Nat) :
    writableIndex p k = true ↔ ∃ r, ctxRegAt p k = some r ∧ r.writable = true := by
  unfold ctxRegAt ctxWindow writableIndex
  split_ifs <;> simp [CtxReg.writable] <;> omega

/-- The index of a register (R204). -/
def CtxReg.index : CtxReg → Nat
  | .bitlenLo => 0x0000
  | .bitlenHi => 0x0001
  | .pendingLen => 0x0002
  | .phase => 0x0003
  | .faultCode => 0x0004
  | .cfgBlockSize => 0x0005
  | .cfgOrder => 0x0006
  | .cfgStateWords => 0x0007
  | .stateWord i => 0x0100 + i
  | .pendingByte j => 0x0200 + j

/-- The window a register lies in, if any: `STATE[i]` has `i < STATE_WORDS`, `PENDING[j]` has `j < BLOCK_SIZE` (R205). -/
def CtxReg.InWindow (p : Params) : CtxReg → Prop
  | .stateWord i => i < p.stateWords
  | .pendingByte j => j < p.blockSize
  | .bitlenLo => True
  | .bitlenHi => True
  | .pendingLen => True
  | .phase => True
  | .faultCode => True
  | .cfgBlockSize => True
  | .cfgOrder => True
  | .cfgStateWords => True

/-- The register found at an index has that index and lies in its window: no index names two registers. -/
theorem ctxRegAt_some {k : Nat} {r : CtxReg} (h : ctxRegAt p k = some r) : k = r.index ∧ r.InWindow p := by
  unfold ctxRegAt ctxWindow at h
  split_ifs at h <;> simp only [Option.some.injEq] at h <;> subst h <;>
    simp [CtxReg.index, CtxReg.InWindow] <;> omega

end

/-- Writing a mapped register keeps the shape of the context. -/
theorem Shape.writeCtx {p : Params} {s : State} (h : Shape p s) {k : Nat} {r : CtxReg}
    (hr : ctxRegAt p k = some r) (v : Word) : Shape p (writeCtx r v s) := by
  cases r with
  | pendingByte j =>
    have hj : j < p.blockSize := (ctxRegAt_some hr).2
    refine ⟨h.stateLength, ?_, ?_, h.faultRecorded⟩
    · show Memory.wf (Memory.write s.pending j (v.setWidth 8))
      exact Memory.write_wf h.pendingWf _ _
    · show Memory.within p.blockSize (Memory.write s.pending j (v.setWidth 8))
      exact Memory.write_within h.pendingWithin hj _
  | stateWord i =>
    refine ⟨?_, h.pendingWf, h.pendingWithin, h.faultRecorded⟩
    show (s.state.set i v).length = _
    rw [List.length_set]
    exact h.stateLength
  | bitlenLo => exact ⟨h.stateLength, h.pendingWf, h.pendingWithin, h.faultRecorded⟩
  | bitlenHi => exact ⟨h.stateLength, h.pendingWf, h.pendingWithin, h.faultRecorded⟩
  | pendingLen => exact ⟨h.stateLength, h.pendingWf, h.pendingWithin, h.faultRecorded⟩
  | phase => exact h
  | faultCode => exact h
  | cfgBlockSize => exact h
  | cfgOrder => exact h
  | cfgStateWords => exact h

/-- No register write touches the ports, the phase, the fault code or the trace. -/
theorem writeCtx_frame (r : CtxReg) (v : Word) (s : State) :
    (writeCtx r v s).phase = s.phase ∧ (writeCtx r v s).faultCode = s.faultCode ∧ (writeCtx r v s).cmd = s.cmd ∧
      (writeCtx r v s).din = s.din ∧ (writeCtx r v s).rsp = s.rsp ∧ (writeCtx r v s).dout = s.dout ∧
      (writeCtx r v s).trace = s.trace := by
  cases r <;> exact ⟨rfl, rfl, rfl, rfl, rfl, rfl, rfl⟩

end Sys2Proof.Machine
end

