-- ==== Sys2Proof/Laws/Finalize.lean ====
section
/-! SUPPORT. What the steps of `FINALIZE` do (spec 43_finalize R152 to R158), each said once: the length field, a block
padded from an offset, the blocks dispatched. -/

namespace Sys2Proof.Machine

@[simp] theorem lengthField_length (o : ByteOrder) (L : Nat) : (lengthField o L).length = 8 := by
  cases o <;> simp [lengthField]

/-- A byte of the length field from the low or the high word of the counter (R156). -/
theorem lengthByte_low {hi lo : Word} {k : Nat} (hk : k + 8 ≤ 32) :
    BitVec.ofNat 8 ((hi.toNat * 2 ^ 32 + lo.toNat) / 2 ^ k) = lo.extractLsb' k 8 := by
  apply BitVec.eq_of_toNat_eq
  rw [extractByte_toNat, BitVec.toNat_ofNat]
  obtain ⟨j, hj⟩ : ∃ j, 32 = k + 8 + j := ⟨32 - (k + 8), by omega⟩
  have e : (2 : Nat) ^ 32 = 2 ^ k * (2 ^ 8 * 2 ^ j) := by rw [hj, Nat.pow_add, Nat.pow_add, Nat.mul_assoc]
  rw [e, show hi.toNat * (2 ^ k * (2 ^ 8 * 2 ^ j)) = 2 ^ k * (2 ^ 8 * (2 ^ j * hi.toNat)) by ring,
    Nat.mul_add_div (Nat.two_pow_pos k), Nat.mul_add_mod]

theorem lengthByte_high {hi lo : Word} {k : Nat} :
    BitVec.ofNat 8 ((hi.toNat * 2 ^ 32 + lo.toNat) / 2 ^ (32 + k)) = hi.extractLsb' k 8 := by
  have hl := lo.isLt
  rw [extractByte_eq, Nat.pow_add, ← Nat.div_div_eq_div_mul, Nat.mul_comm hi.toNat,
    Nat.mul_add_div (by decide), Nat.div_eq_of_lt hl, Nat.add_zero]

/-- The two halves of the counter through the codec are the length field (R155, R156). -/
theorem lengthField_big (hi lo : Word) :
    bytesFromWord .big hi ++ bytesFromWord .big lo = lengthField .big (hi.toNat * 2 ^ 32 + lo.toNat) := by
  show _ = [BitVec.ofNat 8 (_ / 2 ^ (32 + 24)), BitVec.ofNat 8 (_ / 2 ^ (32 + 16)), BitVec.ofNat 8 (_ / 2 ^ (32 + 8)),
    BitVec.ofNat 8 (_ / 2 ^ (32 + 0)), BitVec.ofNat 8 (_ / 2 ^ 24), BitVec.ofNat 8 (_ / 2 ^ 16),
    BitVec.ofNat 8 (_ / 2 ^ 8), BitVec.ofNat 8 (_ / 2 ^ 0)]
  simp only [lengthByte_high, lengthByte_low (hi := hi) (lo := lo) (k := 24) (by decide),
    lengthByte_low (hi := hi) (lo := lo) (k := 16) (by decide),
    lengthByte_low (hi := hi) (lo := lo) (k := 8) (by decide),
    lengthByte_low (hi := hi) (lo := lo) (k := 0) (by decide)]
  rfl

theorem lengthField_little (hi lo : Word) :
    bytesFromWord .little lo ++ bytesFromWord .little hi = lengthField .little (hi.toNat * 2 ^ 32 + lo.toNat) := by
  show _ = [BitVec.ofNat 8 (_ / 2 ^ 0), BitVec.ofNat 8 (_ / 2 ^ 8), BitVec.ofNat 8 (_ / 2 ^ 16),
    BitVec.ofNat 8 (_ / 2 ^ 24), BitVec.ofNat 8 (_ / 2 ^ (32 + 0)), BitVec.ofNat 8 (_ / 2 ^ (32 + 8)),
    BitVec.ofNat 8 (_ / 2 ^ (32 + 16)), BitVec.ofNat 8 (_ / 2 ^ (32 + 24))]
  simp only [lengthByte_high, lengthByte_low (hi := hi) (lo := lo) (k := 24) (by decide),
    lengthByte_low (hi := hi) (lo := lo) (k := 16) (by decide),
    lengthByte_low (hi := hi) (lo := lo) (k := 8) (by decide),
    lengthByte_low (hi := hi) (lo := lo) (k := 0) (by decide)]
  rfl

/-- Step 4 writes the length field in the last eight bytes of the buffer (R155). -/
theorem writeLength_eq {p : Params} (hB : 8 ≤ p.blockSize) (s : State) :
    writeLength p s = writePend (p.blockSize - 8) (lengthField p.order (bitlen s)) s := by
  have h : p.blockSize - 8 + 4 = p.blockSize - 4 := by omega
  unfold writeLength bitlen
  cases p.order with
  | big =>
    rw [← lengthField_big]
    simp only [writePend, Memory.writeBytes_append, bytesFromWord_length, h]
  | little =>
    rw [← lengthField_little]
    simp only [writePend, Memory.writeBytes_append, bytesFromWord_length, h]

section
variable {p : Params} {s : State}

/-- Step 2 (R153): the block is what stands before `n`, then zeros. -/
theorem extraBlock_spec (hp : p.Lawful) (h : Shape p s) {n : Nat} (hn : n ≤ p.blockSize) :
    extraBlock p n s =
      dispatchCompress p .pend (readPend s 0 n ++ zeros (p.blockSize - n)) 1 (writePend n (zeros (p.blockSize - n)) s) ∧
    Shape p (extraBlock p n s) := by
  have e := Memory.readBytes_writeBytes_upto h.pendingWf n (zeros (p.blockSize - n))
  rw [zeros_length, show n + (p.blockSize - n) = p.blockSize by omega] at e
  refine ⟨?_, (h.writePend (by simp; omega)).compressPend hp⟩
  show dispatchCompress p .pend (Memory.readBytes _ 0 p.blockSize) 1 _ = _
  rw [show (writePend n (zeros (p.blockSize - n)) s).pending =
    Memory.writeBytes s.pending n (zeros (p.blockSize - n)) from rfl, e]
  rfl

/-- Steps 3 to 5 (R154, R155, R157): the block is what stands before `n`, zeros, and the length field. -/
theorem finalBlock_spec (hp : p.Lawful) (h : Shape p s) {n : Nat} (hn : n + 8 ≤ p.blockSize) :
    (∃ m, finalBlock p n s =
      dispatchCompress p .pend (readPend s 0 n ++ zeros (p.blockSize - 8 - n) ++ lengthField p.order (bitlen s)) 1
        { s with pending := m }) ∧
    Shape p (finalBlock p n s) := by
  have hB := hp.blockSize_ge
  have hw : Shape p (writePend n (zeros (p.blockSize - 8 - n)) s) := h.writePend (by simp; omega)
  have e1 := Memory.readBytes_writeBytes_upto h.pendingWf n (zeros (p.blockSize - 8 - n))
  have e2 := Memory.readBytes_writeBytes_upto hw.pendingWf (p.blockSize - 8) (lengthField p.order (bitlen s))
  rw [zeros_length, show n + (p.blockSize - 8 - n) = p.blockSize - 8 by omega] at e1
  rw [lengthField_length, show p.blockSize - 8 + 8 = p.blockSize by omega] at e2
  have hf : finalBlock p n s = compressPend p (writePend (p.blockSize - 8) (lengthField p.order (bitlen s))
      (writePend n (zeros (p.blockSize - 8 - n)) s)) := by
    rw [finalBlock, writeLength_eq hB]; rfl
  refine ⟨⟨Memory.writeBytes (writePend n (zeros (p.blockSize - 8 - n)) s).pending (p.blockSize - 8)
    (lengthField p.order (bitlen s)), ?_⟩, ?_⟩
  · rw [hf]
    show dispatchCompress p .pend (Memory.readBytes (Memory.writeBytes
      (writePend n (zeros (p.blockSize - 8 - n)) s).pending (p.blockSize - 8) (lengthField p.order (bitlen s)))
      0 p.blockSize) 1 _ = _
    rw [e2, show (writePend n (zeros (p.blockSize - 8 - n)) s).pending =
      Memory.writeBytes s.pending n (zeros (p.blockSize - 8 - n)) from rfl, e1]
    rfl
  · rw [hf]
    exact (hw.writePend (by simp; omega)).compressPend hp

/-- The padding blocks are one or two (R163), each of `BLOCK_SIZE` bytes. -/
theorem paddingBlocks_length (hB : 8 ≤ p.blockSize) {T : List Byte} (hT : T.length < p.blockSize) (L : Nat) :
    (paddingBlocks p T L).length = (if T.length + 9 ≤ p.blockSize then 1 else 2) ∧
      ∀ b ∈ paddingBlocks p T L, b.length = p.blockSize := by
  unfold paddingBlocks
  split
  · refine ⟨rfl, fun b hb => ?_⟩
    obtain rfl := List.mem_singleton.1 hb
    simp; omega
  · refine ⟨rfl, fun b hb => ?_⟩
    rcases List.mem_cons.1 hb with rfl | hb
    · simp; omega
    · obtain rfl := List.mem_singleton.1 hb
      simp; omega

/-- Steps 1 to 5 (R152 to R157): the padding blocks are dispatched from the buffer in order; only `state`, the buffer
and the trace change. -/
theorem padAndCompress_spec (hp : p.Lawful) (h : Shape p s) (hi : InvLen p s) :
    let blocks := paddingBlocks p (tailBytes s) (bitlen s)
    (∃ m, padAndCompress p s.pendingLen.toNat s =
      { s with
        state := compressN p s.state blocks.flatten blocks.length
        pending := m
        trace := s.trace ++ blocks.map (.compress .pend 1) }) ∧
    Shape p (padAndCompress p s.pendingLen.toNat s) := by
  intro blocks
  have hB := hp.blockSize_ge
  have hlt : s.pendingLen.toNat < p.blockSize := hi
  have hm : Shape p (writeMarker s.pendingLen.toNat s) := h.writePend (v := [0x80]) (by simp; omega)
  have hread : readPend (writeMarker s.pendingLen.toNat s) 0 (s.pendingLen.toNat + 1) = tailBytes s ++ [0x80] :=
    Memory.readBytes_writeBytes_upto h.pendingWf s.pendingLen.toNat [0x80]
  have htl : (tailBytes s).length = s.pendingLen.toNat := by simp [tailBytes, readPend]
  have hbl := (paddingBlocks_length hB (T := tailBytes s) (by omega) (bitlen s)).2
  by_cases hc : p.blockSize - 8 < s.pendingLen.toNat + 1
  · rw [padAndCompress, if_pos hc]
    obtain ⟨x1, x2⟩ := extraBlock_spec hp hm (n := s.pendingLen.toNat + 1) (by omega)
    obtain ⟨⟨m, f1⟩, f2⟩ := finalBlock_spec hp x2 (n := 0) (by omega)
    refine ⟨⟨m, ?_⟩, f2⟩
    have hb : blocks = [tailBytes s ++ [0x80] ++ zeros (p.blockSize - (s.pendingLen.toNat + 1)),
        zeros (p.blockSize - 8) ++ lengthField p.order (bitlen s)] := by
      show paddingBlocks p _ _ = _
      rw [paddingBlocks, if_neg (by omega), htl, show p.blockSize - (s.pendingLen.toNat + 1) =
        p.blockSize - 1 - s.pendingLen.toNat by omega]
    have h1 := hbl (tailBytes s ++ [0x80] ++ zeros (p.blockSize - (s.pendingLen.toNat + 1))) (by
      show _ ∈ blocks; rw [hb]; simp)
    rw [f1, x1, hread, hb]
    have hbit : bitlen (dispatchCompress p .pend
        (tailBytes s ++ [0x80] ++ zeros (p.blockSize - (s.pendingLen.toNat + 1))) 1
        (writePend (s.pendingLen.toNat + 1) (zeros (p.blockSize - (s.pendingLen.toNat + 1)))
          (writeMarker s.pendingLen.toNat s))) = bitlen s := rfl
    rw [hbit]
    apply State.ext_fields <;> try rfl
    · show compressN p (compressN p s.state _ 1) _ 1 = compressN p s.state _ 2
      rw [compressN_one _ _ _ h1, List.flatten_cons, compressN_block h1]
      simp [readPend]
    · show s.trace ++ [_] ++ [_] = s.trace ++ [_, _]
      rw [List.append_assoc]
      simp [readPend]
  · rw [padAndCompress, if_neg hc]
    obtain ⟨⟨m, f1⟩, f2⟩ := finalBlock_spec hp hm (n := s.pendingLen.toNat + 1) (by omega)
    refine ⟨⟨m, ?_⟩, f2⟩
    have hb : blocks = [tailBytes s ++ [0x80] ++ zeros (p.blockSize - 8 - (s.pendingLen.toNat + 1)) ++
        lengthField p.order (bitlen s)] := by
      show paddingBlocks p _ _ = _
      rw [paddingBlocks, if_pos (by omega), htl, show p.blockSize - 9 - s.pendingLen.toNat =
        p.blockSize - 8 - (s.pendingLen.toNat + 1) by omega]
    rw [f1, hread, hb]
    apply State.ext_fields <;> try rfl
    show compressN p s.state _ 1 = _
    rw [List.flatten_cons, List.flatten_nil, List.append_nil]
    rfl

/-- Step 6 leaves nothing in the buffer (R158). -/
theorem clearTail_eq (h : Shape p s) :
    clearTail p s = { s with pending := [], pendingLen := 0, bitlenLo := 0, bitlenHi := 0 } := by
  have := zeroPend_pending_nil h
  apply State.ext_fields <;> first | rfl | simpa using this

end

end Sys2Proof.Machine
end

