-- ==== Sys2Proof/Laws/Commands.lean ====
section
/-! SUPPORT. What any command can do, said once (spec 60_exceptions R241 to R248, 30_encoding R91): it completes with its
effect and its data, or it takes the fault of its status. -/

namespace Sys2Proof.Machine

/-- The effect of a command that completes, without its answer on `RSP`. -/
def commandEffect (p : Params) (i : Instr) (payload : List Byte) (s : State) : State :=
  match i with
  | .init => { zeroPend p s with state := p.iv, bitlenLo := 0, bitlenHi := 0, pendingLen := 0, phase := .live }
  | .absorb _ =>
    if payload.length = 0 then s
    else accumulate p s.pendingLen.toNat payload (advanceBitlen payload.length s)
  | .transform => dispatchCompress p .input payload 1 s
  | .finalize => finishOutput p (clearTail p (padAndCompress p s.pendingLen.toNat s))
  | .ctxrd _ => s
  | .ctxwr idx v =>
    match ctxReg p idx with
    | none => s
    | some r => writeCtx r v s
  | .b2w => s
  | .w2b w => emit (bytesFromWord p.order w) s

/-- The data words a command answers after the status OK. -/
def commandData (p : Params) (i : Instr) (payload : List Byte) (s : State) : List Word :=
  match i with
  | .ctxrd idx =>
    match ctxReg p idx with
    | none => []
    | some r => [readCtx p s r]
  | .b2w => [(wordFromBytes p.order payload 0).1]
  | .init => []
  | .absorb _ => []
  | .transform => []
  | .finalize => []
  | .ctxwr _ _ => []
  | .w2b _ => []

section
variable {p : Params}

theorem ctxRegAt_mapped {k : Nat} {r : CtxReg} (h : ctxRegAt p k = some r) : mappedIndex p k = true := by
  by_contra hc
  rw [(ctxRegAt_none k).2 (by simpa using hc)] at h
  cases h

theorem writableIndex_some {k : Nat} {r : CtxReg} (h : ctxRegAt p k = some r) : writableIndex p k = r.writable := by
  cases hw : r.writable with
  | true => exact (ctxRegAt_writable k).2 ⟨r, h, hw⟩
  | false =>
    by_contra hc
    obtain ⟨r', h1, h2⟩ := (ctxRegAt_writable k).1 (by simpa using hc)
    obtain rfl : r = r' := Option.some.inj (h.symm.trans h1)
    rw [hw] at h2; cases h2

theorem writableIndex_none {k : Nat} (h : ctxRegAt p k = none) : writableIndex p k = false := by
  by_contra hc
  obtain ⟨r', h1, h2⟩ := (ctxRegAt_writable k).1 (by simpa using hc)
  rw [h] at h1; cases h1

/-- The inversion of a command: it is permitted, its status is `0`, and it answers its data over its effect; or its
status is a fault's code and it is that fault taken. -/
theorem commandBody_cases (p : Params) (i : Instr) (payload : List Byte) (s : State) :
    (expectedStatus p i s = 0 ∧ permitted i s.phase = true ∧
      commandBody p i payload s = respond (0 :: commandData p i payload s) (commandEffect p i payload s)) ∨
    (expectedStatus p i s ≠ 0 ∧ commandBody p i payload s = faulted (expectedStatus p i s) s) := by
  cases hperm : permitted i s.phase with
  | false =>
    have he : expectedStatus p i s = 2 := if_pos (by rw [hperm]; rfl)
    refine .inr ⟨by rw [he]; decide, ?_⟩
    rw [he]
    have hl : ∀ x : State, s.phase ≠ .live →
        (if s.phase ≠ .live then takeFault .protocolViolation s else x) = faulted 2 s := fun x h => if_pos h
    have hf : ∀ x : State, s.phase = .fault →
        (if s.phase = .fault then takeFault .protocolViolation s else x) = faulted 2 s := fun x h => if_pos h
    cases i with
    | init => exact hf _ (by cases h : s.phase <;> rw [h] at hperm <;> first | rfl | cases hperm)
    | b2w => exact hf _ (by cases h : s.phase <;> rw [h] at hperm <;> first | rfl | cases hperm)
    | w2b => exact hf _ (by cases h : s.phase <;> rw [h] at hperm <;> first | rfl | cases hperm)
    | absorb => exact hl _ (fun h => by rw [h] at hperm; cases hperm)
    | transform => exact hl _ (fun h => by rw [h] at hperm; cases hperm)
    | finalize => exact hl _ (fun h => by rw [h] at hperm; cases hperm)
    | ctxwr => exact hl _ (fun h => by rw [h] at hperm; cases hperm)
    | ctxrd => cases hperm
  | true =>
    have he : ∀ x y : Word, (if (!permitted i s.phase) = true then x else y) = y :=
      fun x y => if_neg (by rw [hperm]; decide)
    cases i with
    | init => exact .inl ⟨he _ _, rfl, if_neg (fun h => by rw [h] at hperm; cases hperm)⟩
    | b2w => exact .inl ⟨he _ _, rfl, if_neg (fun h => by rw [h] at hperm; cases hperm)⟩
    | w2b => exact .inl ⟨he _ _, rfl, if_neg (fun h => by rw [h] at hperm; cases hperm)⟩
    | transform => exact .inl ⟨he _ _, rfl, if_neg (fun h => h (by simpa [permitted] using hperm))⟩
    | absorb len =>
      have hl : s.phase = .live := by simpa [permitted] using hperm
      rw [show expectedStatus p (.absorb len) s = if p.blockSize ≤ s.pendingLen.toNat then 4 else 0 from he _ _]
      show (_ ∧ _ ∧ absorbBody p payload s = _) ∨ (_ ∧ absorbBody p payload s = _)
      rw [absorbBody, if_neg (show ¬ s.phase ≠ .live from not_not_intro hl)]
      by_cases hn : p.blockSize ≤ s.pendingLen.toNat
      · rw [if_pos hn, if_pos hn]; exact .inr ⟨by decide, rfl⟩
      · rw [if_neg hn, if_neg hn]
        refine .inl ⟨rfl, rfl, ?_⟩
        show _ = respond [0] (if payload.length = 0 then s else _)
        split <;> rfl
    | finalize =>
      have hl : s.phase = .live := by simpa [permitted] using hperm
      rw [show expectedStatus p .finalize s = if p.blockSize ≤ s.pendingLen.toNat then 4 else 0 from he _ _]
      show (_ ∧ _ ∧ finalizeBody p s = _) ∨ (_ ∧ finalizeBody p s = _)
      rw [finalizeBody, if_neg (show ¬ s.phase ≠ .live from not_not_intro hl)]
      by_cases hn : p.blockSize ≤ s.pendingLen.toNat
      · rw [if_pos hn, if_pos hn]; exact .inr ⟨by decide, rfl⟩
      · rw [if_neg hn, if_neg hn]; exact .inl ⟨rfl, rfl, rfl⟩
    | ctxrd idx =>
      rw [show expectedStatus p (.ctxrd idx) s = if mappedIndex p idx.toNat then 0 else 3 from he _ _]
      show (_ ∧ _ ∧ ctxrdBody p idx s = respond (0 :: commandData p (.ctxrd idx) payload s) s) ∨
        (_ ∧ ctxrdBody p idx s = _)
      unfold ctxrdBody commandData ctxReg
      cases hr : ctxRegAt p idx.toNat with
      | none => rw [(ctxRegAt_none _).1 hr]; exact .inr ⟨by decide, rfl⟩
      | some r => rw [ctxRegAt_mapped hr]; exact .inl ⟨rfl, rfl, by simp only [hr]; rfl⟩
    | ctxwr idx v =>
      have hl : s.phase = .live := by simpa [permitted] using hperm
      rw [show expectedStatus p (.ctxwr idx v) s = if writableIndex p idx.toNat then 0 else 3 from he _ _]
      show (_ ∧ _ ∧ ctxwrBody p idx v s = respond [0] (commandEffect p (.ctxwr idx v) payload s)) ∨
        (_ ∧ ctxwrBody p idx v s = _)
      unfold ctxwrBody commandEffect ctxReg
      rw [if_neg (show ¬ s.phase ≠ .live from not_not_intro hl)]
      cases hr : ctxRegAt p idx.toNat with
      | none => rw [writableIndex_none hr]; exact .inr ⟨by decide, rfl⟩
      | some r =>
        rw [writableIndex_some hr]
        cases hw : r.writable with
        | false => exact .inr ⟨by decide, by simp only [hw]; rfl⟩
        | true => exact .inl ⟨rfl, rfl, by simp only [hw, hr]; rfl⟩

/-- The status of a legal command is `0` or the code of one of three faults (R241). -/
theorem expectedStatus_range (p : Params) (i : Instr) (s : State) :
    expectedStatus p i s = 0 ∨ expectedStatus p i s = 2 ∨ expectedStatus p i s = 3 ∨ expectedStatus p i s = 4 := by
  unfold expectedStatus
  split
  · simp
  · cases i <;> dsimp only <;> first | exact .inl rfl | (split <;> simp)

/-- Padding touches neither the counters, nor the ports, nor the lifecycle. -/
theorem padAndCompress_samePorts (p : Params) (n : Nat) (s : State) : SamePorts s (padAndCompress p n s) := by
  unfold padAndCompress finalBlock writeLength
  cases p.order <;> split <;> exact ⟨rfl, rfl, rfl, rfl, rfl, rfl, rfl, rfl⟩

/-- What the effect of a command that completes never touches: the fault code, and the ports `CMD`, `DIN`, `RSP`; and
the phase it leaves (R247). -/
theorem commandEffect_frame (p : Params) (i : Instr) (payload : List Byte) (s : State) :
    (commandEffect p i payload s).phase = phaseAfter i s.phase ∧
      (commandEffect p i payload s).faultCode = s.faultCode ∧ (commandEffect p i payload s).cmd = s.cmd ∧
      (commandEffect p i payload s).din = s.din ∧ (commandEffect p i payload s).rsp = s.rsp := by
  cases i with
  | absorb len =>
    unfold commandEffect
    dsimp only
    split
    · exact ⟨rfl, rfl, rfl, rfl, rfl⟩
    · have := accumulate_samePorts p s.pendingLen.toNat payload (advanceBitlen payload.length s)
      exact ⟨this.phase, this.faultCode, this.cmd, this.din, this.rsp⟩
  | ctxwr idx v =>
    unfold commandEffect
    dsimp only
    split
    · exact ⟨rfl, rfl, rfl, rfl, rfl⟩
    · rename_i r _
      have := writeCtx_frame r v s
      exact ⟨this.1, this.2.1, this.2.2.1, this.2.2.2.1, this.2.2.2.2.1⟩
  | finalize =>
    have := padAndCompress_samePorts p s.pendingLen.toNat s
    exact ⟨rfl, this.faultCode, this.cmd, this.din, this.rsp⟩
  | init => exact ⟨rfl, rfl, rfl, rfl, rfl⟩
  | transform => exact ⟨rfl, rfl, rfl, rfl, rfl⟩
  | ctxrd idx => exact ⟨rfl, rfl, rfl, rfl, rfl⟩
  | b2w => exact ⟨rfl, rfl, rfl, rfl, rfl⟩
  | w2b w => exact ⟨rfl, rfl, rfl, rfl, rfl⟩

/-- The output of a command that completes is appended, as many bytes as R91 says. -/
theorem commandEffect_dout (hp : p.Lawful) (i : Instr) (payload : List Byte) (s : State) :
    ∃ out, (commandEffect p i payload s).dout = s.dout ++ out ∧ out.length = outputBytes p i := by
  cases i with
  | absorb len =>
    refine ⟨[], ?_, rfl⟩
    unfold commandEffect
    dsimp only
    rw [List.append_nil]
    split
    · rfl
    · exact (accumulate_samePorts p s.pendingLen.toNat payload (advanceBitlen payload.length s)).dout
  | ctxwr idx v =>
    refine ⟨[], ?_, rfl⟩
    unfold commandEffect
    dsimp only
    rw [List.append_nil]
    split
    · rfl
    · exact (writeCtx_frame _ v s).2.2.2.2.2.1
  | finalize =>
    refine ⟨p.serialize (clearTail p (padAndCompress p s.pendingLen.toNat s)).state, ?_, hp.serialize_length _⟩
    show (padAndCompress p s.pendingLen.toNat s).dout ++ _ = _
    rw [(padAndCompress_samePorts p s.pendingLen.toNat s).dout]
    rfl
  | w2b w => exact ⟨bytesFromWord p.order w, rfl, bytesFromWord_length _ _⟩
  | init => exact ⟨[], (List.append_nil _).symm, rfl⟩
  | transform => exact ⟨[], (List.append_nil _).symm, rfl⟩
  | ctxrd idx => exact ⟨[], (List.append_nil _).symm, rfl⟩
  | b2w => exact ⟨[], (List.append_nil _).symm, rfl⟩

end

end Sys2Proof.Machine
end

