-- ==== Sys2Proof/Laws/Decode.lean ====
section
/-! SUPPORT. The fields of a command word, and what selects a row of the opcode map in terms of them (spec 30_encoding
R82, R83, R88). -/

namespace Sys2Proof

/-- A command word is its three fields (R82). -/
theorem word_ext {a b : Word} (h1 : opField a = opField b) (h2 : idxField a = idxField b)
    (h3 : rsvField a = rsvField b) : a = b := by
  have e1 := congrArg BitVec.toNat h1
  have e2 := congrArg BitVec.toNat h2
  have e3 := congrArg BitVec.toNat h3
  simp [opField, idxField, rsvField, Nat.shiftRight_eq_div_pow] at e1 e2 e3
  apply BitVec.eq_of_toNat_eq
  omega

theorem opField_and (a b : Word) : opField (a &&& b) = opField a &&& opField b := by
  apply BitVec.eq_of_getLsbD_eq
  intro i hi
  simp [opField, hi]

theorem idxField_and (a b : Word) : idxField (a &&& b) = idxField a &&& idxField b := by
  apply BitVec.eq_of_getLsbD_eq
  intro i hi
  simp [idxField, hi]

theorem rsvField_and (a b : Word) : rsvField (a &&& b) = rsvField a &&& rsvField b := by
  apply BitVec.eq_of_getLsbD_eq
  intro i hi
  simp [rsvField, hi]

@[simp] theorem opField_commandWord (op : BitVec 8) (idx : BitVec 16) : opField (commandWord op idx) = op := by
  apply BitVec.eq_of_getLsbD_eq
  intro i hi
  simp [opField, commandWord, hi]
  omega

@[simp] theorem idxField_commandWord (op : BitVec 8) (idx : BitVec 16) : idxField (commandWord op idx) = idx := by
  apply BitVec.eq_of_getLsbD_eq
  intro i hi
  have h1 : 8 + i < 32 := by omega
  simp [idxField, commandWord, hi, h1]

@[simp] theorem rsvField_commandWord (op : BitVec 8) (idx : BitVec 16) : rsvField (commandWord op idx) = 0 := by
  apply BitVec.eq_of_getLsbD_eq
  intro i hi
  have h : op.getLsbD (24 + i) = false := BitVec.getLsbD_of_ge _ _ (by omega)
  have h' : idx.getLsbD (24 + i - 8) = false := BitVec.getLsbD_of_ge _ _ (by omega)
  simp [rsvField, commandWord, h, h']

/-- A row selects a word by its fields: masked field for masked field. -/
theorem selects_iff (cw : Word) (r : OpRow) :
    r.selects cw = true ↔
      opField cw &&& opField r.mask = opField r.matchBits ∧
      idxField cw &&& idxField r.mask = idxField r.matchBits ∧
      rsvField cw &&& rsvField r.mask = rsvField r.matchBits := by
  rw [← opField_and, ← idxField_and, ← rsvField_and]
  simp only [OpRow.selects, beq_iff_eq]
  constructor
  · rintro h; rw [h]; exact ⟨rfl, rfl, rfl⟩
  · rintro ⟨h1, h2, h3⟩; exact word_ext h1 h2 h3

/-- The `OP` of each row (R83). -/
def Opcode.op : Opcode → BitVec 8
  | .init => 0x01
  | .absorb => 0x02
  | .transform => 0x03
  | .finalize => 0x04
  | .ctxrd => 0x05
  | .ctxwr => 0x06
  | .b2w => 0x07
  | .w2b => 0x08

/-- Whether the row leaves `IDX` free (R82). -/
def Opcode.hasIdx : Opcode → Bool
  | .ctxrd => true
  | .ctxwr => true
  | .init => false
  | .absorb => false
  | .transform => false
  | .finalize => false
  | .b2w => false
  | .w2b => false

theorem Opcode.op_injective {a b : Opcode} (h : a.op = b.op) : a = b := by
  cases a <;> cases b <;> first | rfl | exact absurd h (by decide)

theorem and_ones8 (x : BitVec 8) : x &&& 255#8 = x := BitVec.and_allOnes

theorem and_ones16 (x : BitVec 16) : x &&& 65535#16 = x := BitVec.and_allOnes

/-- What selects a row: its `OP`, `RSV = 0`, and `IDX = 0` unless the row has an index (R82, R83). -/
theorem opRow_selects (cw : Word) (op : Opcode) :
    (opRow op).selects cw = true ↔
      opField cw = op.op ∧ rsvField cw = 0 ∧ (op.hasIdx = false → idxField cw = 0) := by
  rw [selects_iff]
  cases op <;>
    simp [opRow, Opcode.op, Opcode.hasIdx, opField, rsvField, idxField, and_ones8, and_ones16] <;> tauto

/-- At most one row selects a word (R89). -/
theorem opRow_selects_unique {cw : Word} {a b : Opcode} (ha : (opRow a).selects cw = true)
    (hb : (opRow b).selects cw = true) : a = b :=
  Opcode.op_injective (((opRow_selects cw a).1 ha).1.symm.trans ((opRow_selects cw b).1 hb).1)

theorem mem_opcodes (op : Opcode) : op ∈ opcodes := by cases op <;> decide

/-- The row found is the row that selects (R83). -/
theorem opcodeOf_eq_some {cw : Word} {op : Opcode} (h : (opRow op).selects cw = true) :
    opcodeOf cw = some op := by
  cases hf : opcodeOf cw with
  | none => exact absurd h (by simpa using List.find?_eq_none.1 hf op (mem_opcodes op))
  | some a =>
    have ha : (opRow a).selects cw = true := by simpa using List.find?_some hf
    rw [opRow_selects_unique ha h]

theorem selects_of_opcodeOf {cw : Word} {op : Opcode} (h : opcodeOf cw = some op) :
    (opRow op).selects cw = true := by
  simpa using List.find?_some h

/-- The command word of a row decodes to the row. -/
theorem opcodeOf_commandWord (op : Opcode) (idx : BitVec 16) (h : op.hasIdx = false → idx = 0) :
    opcodeOf (commandWord op.op idx) = some op :=
  opcodeOf_eq_some ((opRow_selects _ _).2 ⟨by simp, by simp, by simpa using h⟩)

/-- Splitting `len` into its operand words and assembling it again (R84). -/
theorem assembleLen_halves (len : BitVec 64) :
    assembleLen (len.extractLsb' 0 32) (len.extractLsb' 32 32) = len := by
  apply BitVec.eq_of_toNat_eq
  have h := len.isLt
  rw [assembleLen, BitVec.toNat_ofNat, BitVec.extractLsb'_toNat, BitVec.extractLsb'_toNat,
    Nat.shiftRight_zero, Nat.shiftRight_eq_div_pow]
  omega

theorem assembleLen_toNat (lo hi : Word) : (assembleLen lo hi).toNat = hi.toNat * 2 ^ 32 + lo.toNat := by
  have h1 := lo.isLt
  have h2 := hi.isLt
  rw [assembleLen, BitVec.toNat_ofNat, Nat.mod_eq_of_lt]
  omega

theorem assembleLen_low (lo hi : Word) : (assembleLen lo hi).extractLsb' 0 32 = lo := by
  apply BitVec.eq_of_toNat_eq
  rw [BitVec.extractLsb'_toNat, assembleLen_toNat, Nat.shiftRight_zero, Nat.mul_add_mod_self_right,
    Nat.mod_eq_of_lt lo.isLt]

theorem assembleLen_high (lo hi : Word) : (assembleLen lo hi).extractLsb' 32 32 = hi := by
  apply BitVec.eq_of_toNat_eq
  have h1 := lo.isLt
  have h2 := hi.isLt
  rw [BitVec.extractLsb'_toNat, assembleLen_toNat, Nat.shiftRight_eq_div_pow]
  omega

end Sys2Proof
end

