-- ==== Sys2Proof/Laws/PerInstr.lean ====
section
/-! SUPPORT. Statements made per command of the opcode table, one lemma per constructor. `EncodingShape`: the words of a
command are its command word, selected by its own row, with `RSV = 0`, and the operand words its row calls for (spec
30_encoding R82, R83, R90). -/

namespace Sys2Proof.Laws.EncodingShape

/-- The row of a command (R83). -/
def row : Instr → Opcode
  | .init => .init
  | .absorb _ => .absorb
  | .transform => .transform
  | .finalize => .finalize
  | .ctxrd _ => .ctxrd
  | .ctxwr _ _ => .ctxwr
  | .b2w => .b2w
  | .w2b _ => .w2b

/-- How many operand words follow the command word (R83, R90). -/
def operandWords : Instr → Nat
  | .init => 0
  | .absorb _ => 2
  | .transform => 0
  | .finalize => 0
  | .ctxrd _ => 0
  | .ctxwr _ _ => 1
  | .b2w => 0
  | .w2b _ => 1

def Statement (i : Instr) : Prop :=
  ∃ cw ws, encode i = cw :: ws ∧ ws.length = operandWords i ∧ (opRow (row i)).selects cw = true ∧ rsvField cw = 0

/-- A command word of a row is selected by it and has `RSV = 0`. -/
theorem commandWord_shape (op : Opcode) (idx : BitVec 16) (h : op.hasIdx = false → idx = 0) :
    (opRow op).selects (commandWord op.op idx) = true ∧ rsvField (commandWord op.op idx) = 0 :=
  ⟨selects_of_opcodeOf (opcodeOf_commandWord op idx h), rsvField_commandWord _ _⟩

theorem init : Statement .init := ⟨_, _, rfl, rfl, commandWord_shape .init 0 fun _ => rfl⟩

theorem absorb (len : BitVec 64) : Statement (.absorb len) :=
  ⟨_, _, rfl, rfl, commandWord_shape .absorb 0 fun _ => rfl⟩

theorem transform : Statement .transform := ⟨_, _, rfl, rfl, commandWord_shape .transform 0 fun _ => rfl⟩

theorem finalize : Statement .finalize := ⟨_, _, rfl, rfl, commandWord_shape .finalize 0 fun _ => rfl⟩

theorem ctxrd (idx : BitVec 16) : Statement (.ctxrd idx) :=
  ⟨_, _, rfl, rfl, commandWord_shape .ctxrd idx fun h => absurd h (by decide)⟩

theorem ctxwr (idx : BitVec 16) (value : Word) : Statement (.ctxwr idx value) :=
  ⟨_, _, rfl, rfl, commandWord_shape .ctxwr idx fun h => absurd h (by decide)⟩

theorem b2w : Statement .b2w := ⟨_, _, rfl, rfl, commandWord_shape .b2w 0 fun _ => rfl⟩

theorem w2b (word : Word) : Statement (.w2b word) :=
  ⟨_, _, rfl, rfl, commandWord_shape .w2b 0 fun _ => rfl⟩

end Sys2Proof.Laws.EncodingShape
end

