-- ==== Sys2Proof/Tests/Slice0.lean ====
section
/-! SUPPORT. Tests of the model and witnesses of the statements. Expected results are the spec's own: the encodings of
30_encoding, the examples and vectors of 95_test_vectors (sections 1 and 3). The plugin of the vectors is `toy`. -/

open Sys2Proof Sys2Proof.Machine

namespace Sys2Proof.Tests

/-! ### Well-formedness: each check refuses an ill-formed term -/

/-- `TOY` of 95_test_vectors section 1. -/
def toyRound (o : ByteOrder) (block : List Byte) (acc : Word × Word) (i : Nat) : Word × Word :=
  (acc.2, acc.1.rotateLeft 5 + (acc.2 ^^^ (wordFromBytes o block (4 * i)).1) + BitVec.ofNat 32 i)

def toy (B : Nat) (o : ByteOrder) : Params where
  blockSize := B
  order := o
  stateWords := 2
  outLen := 8
  iv := [0x01234567, 0x89abcdef]
  compress := fun s block =>
    let r := (List.range (B / 4)).foldl (toyRound o block) (s.getD 0 0, s.getD 1 0)
    [r.1, r.2]
  serialize := fun s => bytesFromWord o (s.getD 0 0) ++ bytesFromWord o (s.getD 1 0)

theorem test_toy_wellformed : (toy 16 .little).sizesOk = true := by decide

theorem test_block_size_too_small : (toy 7 .little).blockSizeOk = false := by decide

theorem test_block_size_too_large : (toy 0xFE01 .big).blockSizeOk = false := by decide

theorem test_state_words_zero : ({ toy 16 .big with stateWords := 0 } : Params).stateWordsOk = false := by decide

theorem test_state_words_too_many : ({ toy 16 .big with stateWords := 257 } : Params).stateWordsOk = false := by decide

theorem test_iv_too_short : ({ toy 16 .big with iv := [0] } : Params).ivOk = false := by decide

theorem test_payload_too_short : (Packet.mk (.absorb 3) [0x61, 0x62]).wellFramed (toy 16 .big) = false := by decide

theorem test_payload_too_long : (Packet.mk .finalize [0x61]).wellFramed (toy 16 .big) = false := by decide

theorem test_payload_exact : (Packet.mk .b2w [1, 2, 3, 4]).wellFramed (toy 16 .big) = true := by decide

/-! ### Decoding: words written out bit by bit, RSV (31:24), IDX (23:8), OP (7:0) [30_encoding R82, R83, R84, R88] -/

theorem test_decode_init : decode [0b00000000_0000000000000000_00000001] = .instr .init [] := by decide

theorem test_decode_absorb :
    decode [0b00000000_0000000000000000_00000010, 0x20000000, 0x00000001, 0x00000004] =
      .instr (.absorb 0x120000000) [0x00000004] := by decide

theorem test_decode_transform : decode [0b00000000_0000000000000000_00000011] = .instr .transform [] := by decide

theorem test_decode_finalize : decode [0b00000000_0000000000000000_00000100] = .instr .finalize [] := by decide

theorem test_decode_ctxrd : decode [0b00000000_1111111111111111_00000101] = .instr (.ctxrd 0xFFFF) [] := by decide

theorem test_decode_ctxwr :
    decode [0b00000000_0000001000001111_00000110, 0xDEADBEEF] = .instr (.ctxwr 0x020F 0xDEADBEEF) [] := by decide

theorem test_decode_b2w : decode [0b00000000_0000000000000000_00000111] = .instr .b2w [] := by decide

theorem test_decode_w2b :
    decode [0b00000000_0000000000000000_00001000, 0x80000001] = .instr (.w2b 0x80000001) [] := by decide

/-- `OP` 0 and 9, `IDX` on `INIT` and on `ABSORB`, `RSV` on `CTXRD`: illegal, the packet is the word alone. -/
theorem test_decode_illegal :
    decode [0x00000000, 1] = .illegal 0x00000000 [1] ∧
    decode [0b00000000_0000000000000000_00001001] = .illegal 0x00000009 [] ∧
    decode [0b00000000_0000000000000001_00000001] = .illegal 0x00000101 [] ∧
    decode [0b00000000_0000000100000000_00000010, 3, 0] = .illegal 0x00010002 [3, 0] ∧
    decode [0b00000001_0000000000000000_00000101] = .illegal 0x01000005 [] ∧
    decode [0xFFFFFFFF] = .illegal 0xFFFFFFFF [] := by decide

/-- The operand words of `ABSORB` are not there yet. -/
theorem test_decode_waits : decode [0x00000002, 0x00000003] = .noOperands ∧ decode [] = .noCommand := by decide

theorem test_encode_ctxwr : encode (.ctxwr 0x0002 0x40) = [0x00000206, 0x00000040] := by decide

theorem test_table_words :
    decodeTableWord 32 0x00000003 = some .transform ∧ decodeTableWord 96 0x00000001_20000000_00000002 =
      some (.absorb 0x120000000) ∧ decodeTableWord 32 0x00000101 = none := by decide

/-! ### Placing a packet and running it, on numerals -/

theorem test_placed_init : (step (State.reset.withFetchWord 32 1)) = exec .init State.reset := by rfl

theorem test_placed_finalize_faults :
    (match step (State.reset.withFetchWord 32 4) with
      | .next t => decide (t.phase = .fault ∧ t.faultCode = 2 ∧ t.rsp = [2] ∧ t.cmd = [])
      | _ => false) = true := by decide

/-- The pseudo-instruction `DIGEST` (R94), its packets well-framed. -/
theorem test_digest_expands :
    (Pseudo.digest [0x61]).expand = [⟨.init, []⟩, ⟨.absorb 1, [0x61]⟩, ⟨.finalize, []⟩] ∧
    (Pseudo.digest [0x61]).expand.all (Packet.wellFramed (toy 16 .big)) = true := by decide

/-! ### One command at a time, at `TOY` [95_test_vectors section 3] -/

/-- A context in phase `LIVE`. -/
def live (state : List Word) (lo hi : Word) (tail : List Byte) : State where
  state := state
  bitlenLo := lo
  bitlenHi := hi
  pending := Memory.writeBytes [] 0 tail
  pendingLen := BitVec.ofNat 32 tail.length
  phase := .live
  faultCode := 0
  cmd := []
  din := []
  rsp := []
  dout := []
  trace := []

/-- The bytes `a, a+1, …, b-1`. -/
def run (a b : Nat) : List Byte := (List.range (b - a)).map fun i => BitVec.ofNat 8 (a + i)

/-- Section 3.6: `INIT`; it also abandons the message in progress (section 3.7). -/
theorem test_init :
    initBody (toy 16 .little) (live [5, 6] 8 0 [0x61]) =
      { live [0x01234567, 0x89abcdef] 0 0 [] with rsp := [0] } := by decide

/-- Section 1: `F` of the block `00 … 0f` in both orders. -/
theorem test_toy_block :
    (toy 16 .little).compress (toy 16 .little).iv (run 0 16) = [0xb8d36dac, 0x69a4b85e] ∧
    (toy 16 .big).compress (toy 16 .big).iv (run 0 16) = [0x9a08cc4d, 0x880cda00] := by decide

/-- Section 3.2, set S3, row (3, 13): one dispatch of the completed block, the buffer empty, `lo = 0x80`. -/
theorem test_absorb_drain :
    absorbBody (toy 16 .little) (run 0x30 0x3d) (live [0x01234567, 0x89abcdef] 0x18 0 (run 0x61 0x64)) =
      { live [0xed76a841, 0xc0d31c9e] 0x80 0 [] with
        rsp := [0], trace := [.compress .pend 1 (run 0x61 0x64 ++ run 0x30 0x3d)] } := by decide

/-- Section 3.2, set S2, second command: drain, bulk of two blocks, remainder of three bytes. -/
theorem test_absorb_all_branches :
    absorbBody (toy 16 .little) (run 7 51) (live [0x01234567, 0x89abcdef] 0x38 0 (run 0 7)) =
      { live [0x8f206827, 0x13734376] 0x198 0 (run 48 51) with
        rsp := [0], trace := [.compress .pend 1 (run 0 16), .compress .input 2 (run 16 48)] } := by decide

/-- Section 3.3: the second block of the table, `BIG`; `pending_len` corrupt (`>= B`) does not matter (section 3.7). -/
theorem test_transform :
    transformBody (toy 16 .big) (run 16 32) { live [0x9a08cc4d, 0x880cda00] 0 0 [] with pendingLen := 16 } =
      { live [0xfd8ed6d5, 0xb944c546] 0 0 [] with
        pendingLen := 16, rsp := [0], trace := [.compress .input 1 (run 16 32)] } := by decide

/-- Section 3.4, `LITTLE`, `L = 3`: one block. -/
theorem test_finalize_one_block :
    finalizeBody (toy 16 .little) (live [0x01234567, 0x89abcdef] 0x18 0 (run 0x61 0x64)) =
      { live [0x29d6a83f, 0x9f39f44e] 0 0 [] with
        phase := .final, rsp := [0], dout := [0x3f, 0xa8, 0xd6, 0x29, 0x4e, 0xf4, 0x39, 0x9f]
        trace := [.compress .pend 1 (run 0x61 0x64 ++ [0x80, 0, 0, 0, 0, 0x18] ++ zeros 7),
          .serialize [0x29d6a83f, 0x9f39f44e] [0x3f, 0xa8, 0xd6, 0x29, 0x4e, 0xf4, 0x39, 0x9f]] } := by decide

/-- Section 3.4, `BIG`, `L = 8` (`B - 8`): two blocks. -/
theorem test_finalize_two_blocks :
    (finalizeBody (toy 16 .big) (live [0x01234567, 0x89abcdef] 0x40 0 (run 0x61 0x69))).trace =
      [.compress .pend 1 (run 0x61 0x69 ++ [0x80] ++ zeros 7), .compress .pend 1 (zeros 15 ++ [0x40]),
        .serialize [0xdccc77b8, 0x6016d6d2] [0xdc, 0xcc, 0x77, 0xb8, 0x60, 0x16, 0xd6, 0xd2]] := by decide

/-- Section 3.6: `CTXRD PHASE`, and an index past the `STATE` window of two words. -/
theorem test_ctxrd :
    (ctxrdBody (toy 16 .little) 0x0003 (live [1, 2] 0 0 [])).rsp = [0, 1] ∧
    ctxrdBody (toy 16 .little) 0x0102 (live [1, 2] 0 0 []) =
      { live [1, 2] 0 0 [] with phase := .fault, faultCode := 3, rsp := [3] } := by decide

/-- Section 3.6: the last byte of the `PENDING` window reads, the next index faults. -/
theorem test_ctxrd_pending_edge :
    (ctxrdBody (toy 16 .little) 0x020F (live [1, 2] 0 0 (run 1 17))).rsp = [0, 0x10] ∧
    (ctxrdBody (toy 16 .little) 0x0210 (live [1, 2] 0 0 [])).rsp = [3] := by decide

/-- Section 3.6: `CTXWR PENDING[0], 0x12345678` stores `78`. -/
theorem test_ctxwr_pending :
    ctxwrBody (toy 16 .little) 0x0200 0x12345678 (live [1, 2] 0 0 []) =
      { live [1, 2] 0 0 [] with pending := [(0, 0x78)], rsp := [0] } := by decide

/-- Sections 3.6, 3.7: a read-only register in `LIVE`, and the phase check before the index check. -/
theorem test_ctxwr_refused :
    (ctxwrBody (toy 16 .little) 0x0003 0 (live [1, 2] 0 0 [])).rsp = [3] ∧
    (ctxwrBody (toy 16 .little) 0x0003 0 { live [1, 2] 0 0 [] with phase := .uninit }).rsp = [2] := by decide

/-- Section 3.5, rows 11 and 12. -/
theorem test_b2w :
    (b2wBody (toy 16 .big) [0xde, 0xad, 0xbe, 0xef] (live [] 0 0 [])).rsp = [0, 0xdeadbeef] ∧
    (b2wBody (toy 16 .little) [0xde, 0xad, 0xbe, 0xef] (live [] 0 0 [])).rsp = [0, 0xefbeadde] := by decide

/-- Section 3.5, rows 1 and 7. -/
theorem test_w2b :
    (w2bBody (toy 16 .big) 0x01020304 (live [] 0 0 [])).dout = [1, 2, 3, 4] ∧
    (w2bBody (toy 16 .little) 0x80000000 (live [] 0 0 [])).dout = [0, 0, 0, 0x80] := by decide

/-- Section 3.1, rows 5, 7, 11, 13, 14. -/
theorem test_bitlen_add :
    bitlenAdd 0xffffffff 0 1 = (7, 1) ∧ bitlenAdd 0x10 0 0x1fffffff = (8, 1) ∧
    bitlenAdd 0 0 0x2000000020000001 = (8, 1) ∧ bitlenAdd 0 0 0xffffffffffffffff = (0xfffffff8, 0xffffffff) ∧
    bitlenAdd 8 0 0x1fffffffffffffff = (0, 0) := by decide

/-- Section 3.7: the first fault code is kept, the status is the second fault's own. -/
theorem test_second_fault :
    illegalBody 0x00000009 [] { live [1, 2] 0 0 [] with phase := .fault, faultCode := 2 } =
      { live [1, 2] 0 0 [] with phase := .fault, faultCode := 2, rsp := [1] } := by decide

/-! ### Witnesses: for each statement with hypotheses, a state and operands that meet all of them together -/

/-- A context in phase `LIVE` of the machine itself, its buffer empty. -/
def live0 : State := { State.reset with phase := .live }

/-- The same with one byte buffered. -/
def live1 : State := { live0 with pending := [(0, 0x61)], pendingLen := 1, bitlenLo := 8 }

/-- The same with `pending_len` corrupt: the least value that breaks INV-LEN. -/
def corrupt : State := { live0 with pendingLen := BitVec.ofNat 32 Config.params.blockSize }

/-- A context in which a fault was raised. -/
def faulted0 : State := { State.reset with phase := .fault, faultCode := 2 }

theorem blockSize_bounds : 8 ≤ Config.params.blockSize ∧ Config.params.blockSize ≤ 0xFE00 :=
  ⟨Config.params_lawful.blockSize_ge, Config.params_lawful.blockSize_le⟩

theorem corrupt_pendingLen : corrupt.pendingLen.toNat = Config.params.blockSize :=
  word_toNat_ofNat (Nat.lt_of_le_of_lt blockSize_bounds.2 (by decide))

theorem reset_stateLength : State.reset.state.length = Config.params.stateWords := List.length_replicate

theorem reset_shape : Shape Config.params State.reset :=
  ⟨reset_stateLength, Memory.wf_nil, fun _ h => absurd h List.not_mem_nil, by decide⟩

theorem live0_shape : Shape Config.params live0 :=
  ⟨reset_stateLength, Memory.wf_nil, fun _ h => absurd h List.not_mem_nil, by decide⟩

theorem live0_invLen : InvLen Config.params live0 := Nat.lt_of_lt_of_le (by decide) blockSize_bounds.1

theorem live0_invZero : InvZero Config.params live0 := fun _ _ _ => rfl

theorem live1_shape : Shape Config.params live1 := by
  refine ⟨reset_stateLength, by decide, fun c h => ?_, by decide⟩
  obtain rfl := List.mem_singleton.1 h
  exact Nat.lt_of_lt_of_le (by decide) blockSize_bounds.1

theorem live1_invLen : InvLen Config.params live1 := Nat.lt_of_lt_of_le (by decide) blockSize_bounds.1

theorem live1_invZero : InvZero Config.params live1 := fun j h _ => by
  have h1 : 1 ≤ j := h
  show Memory.read [(0, 0x61)] j = 0
  rw [Memory.read_cons, if_neg (by omega)]
  rfl

theorem faulted0_shape : Shape Config.params faulted0 :=
  ⟨reset_stateLength, Memory.wf_nil, fun _ h => absurd h List.not_mem_nil, by decide⟩

theorem witness_StepRunsDecodedCommand :
    decode { live0 with cmd := [0x00000008, 7, 1] }.cmd = .instr (.w2b 7) [1] ∧
    { live0 with cmd := [0x00000008, 7, 1] }.cmd = encode (.w2b 7) ++ [1] := by decide

theorem witness_IllegalWordTakesFault :
    IllegalWord 0x00000000 ∧ IllegalWord 0x00000009 ∧ IllegalWord 0x01000005 ∧ IllegalWord 0x00000107 ∧
    { live0 with cmd := [0x00000009, 1] }.cmd = 0x00000009 :: [1] := by decide

theorem witness_EveryWordDecodesOnce : (opRow .ctxrd).selects 0x00FFFF05 = true := by decide

theorem witness_EncodeOfDecode : decode [0x00000002, 3, 0, 4] = .instr (.absorb 3) [4] := by decide

/-- Each side of the equivalence: no word, a missing operand word, a missing payload; and a packet that runs. -/
theorem witness_StopsOnlyOnIncompletePacket :
    step State.reset = .fault .awaitingCommand ∧ step { live0 with cmd := [0x00000008] } = .fault .awaitingOperands ∧
    step { live0 with cmd := [0x00000007], din := [1, 2, 3] } = .fault .awaitingPayload ∧
    ∃ t, step { live0 with cmd := [0x00000007], din := [1, 2, 3, 4] } = .next t :=
  ⟨rfl, rfl, rfl, _, rfl⟩

theorem witness_PlacedPacketRunsNext :
    decodeTableWord 32 0x00000003 = some .transform ∧ decodeTableWord 32 0x00000002 = some (.absorb 0) := by decide

theorem witness_IssuedPacketRunsWhole :
    State.reset.cmd = [] ∧ State.reset.din = [] ∧
    (absorbPacket [0x61, 0x62]).wellFramed Config.params = true ∧ (⟨.init, []⟩ : Packet).wellFramed Config.params = true :=
  ⟨rfl, rfl, rfl, rfl⟩

theorem witness_StepKeepsShape :
    ∃ s t, Shape Config.params s ∧ step s = .next t :=
  ⟨{ live1 with cmd := [0x00000206, 0xFFFFFFFF] }, _,
    ⟨live1_shape.stateLength, live1_shape.pendingWf, live1_shape.pendingWithin, live1_shape.faultRecorded⟩, rfl⟩

/-- A command that is no `CTXWR`; a `CTXWR` of an index next to those excluded, for each clause; and `INIT`. -/
theorem witness_BufferInvariantsKept :
    (∃ s t, Shape Config.params s ∧ step s = .next t ∧ InvLen Config.params s ∧ InvZero Config.params s ∧
      ∀ idx v rest, decode s.cmd ≠ .instr (.ctxwr idx v) rest) ∧
    (∃ s t, Shape Config.params s ∧ step s = .next t ∧ InvLen Config.params s ∧
      decode s.cmd = .instr (.ctxwr 0x0200 1) []) ∧
    (∃ s t, Shape Config.params s ∧ step s = .next t ∧ InvZero Config.params s ∧
      decode s.cmd = .instr (.ctxwr 0x0001 1) []) ∧
    ∃ s t, Shape Config.params s ∧ step s = .next t ∧ decode s.cmd = .instr .init [] ∧ s.phase ≠ .fault :=
  ⟨⟨{ live1 with cmd := [0x00000004] }, _, ⟨live1_shape.1, live1_shape.2, live1_shape.3, live1_shape.4⟩, rfl,
      live1_invLen, live1_invZero, fun _ _ _ h => by cases h⟩,
    ⟨{ live1 with cmd := [0x00020006, 1] }, _, ⟨live1_shape.1, live1_shape.2, live1_shape.3, live1_shape.4⟩, rfl,
      live1_invLen, rfl⟩,
    ⟨{ live1 with cmd := [0x00000106, 1] }, _, ⟨live1_shape.1, live1_shape.2, live1_shape.3, live1_shape.4⟩, rfl,
      live1_invZero, rfl⟩,
    ⟨{ live1 with cmd := [0x00000001] }, _, ⟨live1_shape.1, live1_shape.2, live1_shape.3, live1_shape.4⟩, rfl, rfl,
      by decide⟩⟩

/-- A step of each kind: completes, a legal command's fault, an illegal word's. -/
theorem witness_FaultChangesOnlyPhaseAndCode :
    (∃ t, step { live0 with cmd := [0x00000005] } = .next t) ∧
    (∃ t, step { State.reset with cmd := [0x00000004] } = .next t) ∧
    ∃ t, step { live0 with cmd := [0xFFFFFFFF] } = .next t := ⟨⟨_, rfl⟩, ⟨_, rfl⟩, _, rfl⟩

/-- Each status a legal command can have. -/
theorem witness_StatusIsFirstFault :
    (∃ t, exec .finalize State.reset = .next t) ∧ expectedStatus Config.params .finalize State.reset = 2 ∧
    (∃ t, exec (.ctxrd 0x0008) State.reset = .next t) ∧
    expectedStatus Config.params (.ctxrd 0x0008) State.reset = 3 ∧
    (∃ t, exec .finalize corrupt = .next t) ∧ expectedStatus Config.params .finalize corrupt = 4 ∧
    (∃ t, exec .init State.reset = .next t) ∧ expectedStatus Config.params .init State.reset = 0 := by
  refine ⟨⟨_, rfl⟩, rfl, ⟨_, rfl⟩, ?_, ⟨_, rfl⟩, ?_, ⟨_, rfl⟩, rfl⟩
  · simp [expectedStatus, permitted, mappedIndex]
  · show (if Config.params.blockSize ≤ corrupt.pendingLen.toNat then (4 : Word) else 0) = 4
    rw [corrupt_pendingLen, if_pos (Nat.le_refl _)]

theorem witness_PhaseTable :
    (∃ t, exec .finalize State.reset = .next t ∧ permitted .finalize State.reset.phase = false) ∧
    (∃ t, exec .init State.reset = .next t ∧ permitted .init State.reset.phase = true) ∧
    (∃ t, exec (.ctxrd 0x0008) live0 = .next t ∧ permitted (.ctxrd 0x0008) live0.phase = true) ∧
    decode { live0 with cmd := [0] }.cmd = .illegal 0 [] ∧
    ∃ t, step { faulted0 with cmd := [0x00000305] } = .next t ∧ faulted0.phase = .fault :=
  ⟨⟨_, rfl, rfl⟩, ⟨_, rfl, rfl⟩, ⟨_, rfl, rfl⟩, rfl, _, rfl, rfl⟩

theorem witness_FaultIsAbsorbing :
    faulted0.phase = .fault ∧ faulted0.faultCode ≠ 0 ∧
    (∃ t, step { faulted0 with cmd := [0x00000009] } = .next t) ∧ decode [0x00000009] = .illegal 0x00000009 [] ∧
    (∃ t, step { faulted0 with cmd := [0x00000805] } = .next t) ∧
    decode [0x00000805] = .instr (.ctxrd 0x0008) [] ∧ mappedIndex Config.params 0x0008 = false ∧
    (∃ t, step { faulted0 with cmd := [0x00000405] } = .next t) ∧
    decode [0x00000405] = .instr (.ctxrd 0x0004) [] ∧ mappedIndex Config.params 0x0004 = true ∧
    ∃ t, step { faulted0 with cmd := [0x00000001] } = .next t ∧ decode [0x00000001] = .instr .init [] := by
  refine ⟨rfl, by decide, ⟨_, rfl⟩, rfl, ⟨_, rfl⟩, rfl, ?_, ⟨_, rfl⟩, rfl, ?_, _, rfl, rfl⟩ <;> simp [mappedIndex]

theorem witness_PacketConsumedAnsweredOnce :
    (∃ t, step { live0 with cmd := [0x00000007], din := [1, 2, 3, 4, 5] } = .next t) ∧
    (∃ t, step { faulted0 with cmd := [0x00000007], din := [1, 2, 3, 4, 5] } = .next t) ∧
    ∃ t, step { live0 with cmd := [0x00000101, 1] } = .next t := ⟨⟨_, rfl⟩, ⟨_, rfl⟩, _, rfl⟩

theorem reset_state_cons : ∃ l, State.reset.state = 0 :: l :=
  ⟨List.replicate Config.stateWordsAbove1.val 0, by
    show List.replicate (1 + Config.stateWordsAbove1.val) (0 : Word) = _
    rw [Nat.add_comm]; rfl⟩

/-- A command that changes each field. -/
theorem witness_FieldsChangeOnlyByTheirWriters :
    (∃ t, exec (.ctxwr 0x0100 1) live0 = .next t ∧ t.state ≠ live0.state) ∧
    (∃ t, exec (.ctxwr 0x0001 1) live0 = .next t ∧ t.bitlenHi ≠ live0.bitlenHi) ∧
    (∃ t, exec .init State.reset = .next t ∧ t.phase ≠ State.reset.phase) ∧
    (∃ t, exec .finalize State.reset = .next t ∧ t.faultCode ≠ State.reset.faultCode) ∧
    (∃ t, exec .finalize live0 = .next t ∧ t.trace ≠ live0.trace) ∧
    ∃ t, exec (.w2b 1) live0 = .next t ∧ t.dout ≠ live0.dout := by
  refine ⟨?_, ⟨_, rfl, by decide⟩, ⟨_, rfl, by decide⟩, ⟨_, rfl, by decide⟩, ⟨_, rfl, ?_⟩, ⟨_, rfl, ?_⟩⟩
  · refine ⟨_, rfl, ?_⟩
    have h : ctxReg Config.params 0x0100 = some (.stateWord 0) :=
      ctxRegAt_state (p := Config.params) (i := 0) Config.params_lawful.stateWords_ge
    rw [ctxwrBody, if_neg (by decide), h]
    obtain ⟨l, hl⟩ := reset_state_cons
    show State.reset.state.set 0 1 ≠ State.reset.state
    rw [hl]
    simp
  · have h := (padAndCompress_spec Config.params_lawful live0_shape live0_invLen)
    rw [finalizeBody, if_neg (by decide), if_neg (Nat.not_le.2 live0_invLen)]
    intro hc
    have := congrArg List.length hc
    simp [live0, State.reset] at this
  · rw [w2bBody, if_neg (by decide)]
    show [] ++ bytesFromWord Config.params.order 1 ≠ []
    cases Config.params.order <;> simp [bytesFromWord]

theorem witness_InitIsTheOnlyWayToLive :
    ∃ t, step { State.reset with cmd := [0x00000001] } = .next t ∧ State.reset.phase ≠ .live ∧ t.phase = .live :=
  ⟨_, rfl, by decide, rfl⟩

theorem witness_InitLoadsInitialContext :
    Shape Config.params live1 ∧ live1.phase ≠ .fault ∧ Shape Config.params faulted0 ∧ faulted0.phase = .fault :=
  ⟨live1_shape, by decide, faulted0_shape, rfl⟩

/-- The boundary indices of every window, and the first unmapped ones. -/
theorem witness_CtxrdAnswersRegister :
    0 < Config.params.stateWords ∧ (0x0100 : BitVec 16).toNat = 0x0100 + 0 ∧
    Config.params.stateWords - 1 < Config.params.stateWords ∧
    (BitVec.ofNat 16 (0x00FF + Config.params.stateWords)).toNat = 0x0100 + (Config.params.stateWords - 1) ∧
    Config.params.blockSize - 1 < Config.params.blockSize ∧
    (BitVec.ofNat 16 (0x01FF + Config.params.blockSize)).toNat = 0x0200 + (Config.params.blockSize - 1) ∧
    mappedIndex Config.params (0x0008 : BitVec 16).toNat = false := by
  have h1 := Config.params_lawful.stateWords_ge
  have h2 := Config.params_lawful.stateWords_le
  have h3 := blockSize_bounds
  refine ⟨h1, rfl, by omega, ?_, by omega, ?_, by simp [mappedIndex]⟩ <;>
    rw [BitVec.toNat_ofNat, Nat.mod_eq_of_lt (by omega)] <;> omega

theorem witness_CtxwrWritesOneField :
    Memory.wf live1.pending ∧ live1.phase = .live ∧ State.reset.phase ≠ .live ∧
    (0x0000 : BitVec 16).toNat = 0x0000 ∧ (0x0002 : BitVec 16).toNat = 0x0002 ∧
    0 < Config.params.stateWords ∧ (0x0100 : BitVec 16).toNat = 0x0100 + 0 ∧
    7 < Config.params.blockSize ∧ (0x0207 : BitVec 16).toNat = 0x0200 + 7 ∧
    writableIndex Config.params (0x0003 : BitVec 16).toNat = false ∧
    writableIndex Config.params (0x0008 : BitVec 16).toNat = false :=
  ⟨live1_shape.pendingWf, rfl, by decide, rfl, rfl, Config.params_lawful.stateWords_ge, rfl, blockSize_bounds.1, rfl,
    by simp [writableIndex], by simp [writableIndex]⟩

theorem witness_CtxwrRefusals :
    live0.phase = .live ∧ 0x0003 ≤ (0x0007 : BitVec 16).toNat ∧ (0x0007 : BitVec 16).toNat ≤ 0x0007 ∧
    mappedIndex Config.params (0x00FF : BitVec 16).toNat = false ∧ Config.params.blockSize ≤ 0xFE00 :=
  ⟨rfl, by decide, by decide, by simp [mappedIndex], blockSize_bounds.2⟩

theorem witness_CtxwrThenCtxrd :
    ∃ t, Shape Config.params live1 ∧ live1.phase = .live ∧
      writableIndex Config.params (0x0207 : BitVec 16).toNat = true ∧ exec (.ctxwr 0x0207 0x1234) live1 = .next t ∧
      (0x0003 : BitVec 16) ≠ 0x0207 ∧ mappedIndex Config.params (0x0003 : BitVec 16).toNat = true := by
  have h := blockSize_bounds.1
  exact ⟨_, live1_shape, rfl, by simp [writableIndex]; omega, rfl, by decide, by simp [mappedIndex]⟩

theorem witness_BitlenAddIsExact : 8 * 2 ^ 29 % 2 ^ 32 = 0 := by decide

/-- An `ABSORB` that completes, one that faults, and a `CTXWR` next to the indices excluded. -/
theorem witness_CounterCountsAbsorbedBytes :
    (∃ t, exec (.absorb 1) { live0 with din := [0x61] } = .next t) ∧
    (∃ t, exec (.absorb 1) { State.reset with din := [0x61] } = .next t) ∧
    ∃ t, exec (.ctxwr 0x0002 5) live0 = .next t ∧ (0x0002 : BitVec 16) ≠ 0x0000 ∧ (0x0002 : BitVec 16) ≠ 0x0001 :=
  ⟨⟨_, rfl⟩, ⟨_, rfl⟩, _, rfl, by decide, by decide⟩

theorem witness_AbsorbEntryChecks :
    (0 : BitVec 64).toNat ≤ corrupt.din.length ∧ corrupt.phase = .live ∧
    Config.params.blockSize ≤ corrupt.pendingLen.toNat ∧ State.reset.phase ≠ .live :=
  ⟨by decide, rfl, Nat.le_of_eq corrupt_pendingLen.symm, by decide⟩

theorem witness_AbsorbZeroLengthIsNoOp : live1.phase = .live ∧ InvLen Config.params live1 := ⟨rfl, live1_invLen⟩

theorem witness_AbsorbPostconditions :
    let s : State := { live1 with din := [0x62] }
    Shape Config.params s ∧ InvLen Config.params s ∧ InvZero Config.params s ∧ s.phase = .live ∧
      0 < (1 : BitVec 64).toNat ∧ (1 : BitVec 64).toNat ≤ s.din.length :=
  ⟨⟨live1_shape.1, live1_shape.2, live1_shape.3, live1_shape.4⟩, live1_invLen, live1_invZero, rfl, by decide, by decide⟩

/-- The three clauses: an empty buffer, a fill of one byte, and a completed block. -/
theorem witness_AbsorbDispatches :
    (Shape Config.params live0 ∧ InvLen Config.params live0 ∧ live0.pendingLen.toNat = 0) ∧
    (Shape Config.params { live1 with din := [0x62] } ∧ InvLen Config.params { live1 with din := [0x62] } ∧
      (1 : BitVec 64).toNat ≤ [(0x62 : Byte)].length ∧ 0 < live1.pendingLen.toNat ∧
      live1.pendingLen.toNat + (1 : BitVec 64).toNat < Config.params.blockSize) ∧
    ((BitVec.ofNat 64 (Config.params.blockSize - 1)).toNat ≤
        { live1 with din := zeros (Config.params.blockSize - 1) }.din.length ∧
      Config.params.blockSize ≤
        live1.pendingLen.toNat + (BitVec.ofNat 64 (Config.params.blockSize - 1)).toNat) := by
  have h := blockSize_bounds
  have hl : (BitVec.ofNat 64 (Config.params.blockSize - 1)).toNat = Config.params.blockSize - 1 := by
    rw [BitVec.toNat_ofNat, Nat.mod_eq_of_lt (by omega)]
  have h1 : live1.pendingLen.toNat = 1 := rfl
  have h2 : (1 : BitVec 64).toNat = 1 := rfl
  refine ⟨⟨live0_shape, live0_invLen, rfl⟩, ⟨⟨live1_shape.1, live1_shape.2, live1_shape.3, live1_shape.4⟩, live1_invLen,
    by decide, by decide, ?_⟩, ?_, ?_⟩
  · omega
  · rw [hl]; exact Nat.le_of_eq (zeros_length _).symm
  · rw [hl]; omega

theorem witness_AbsorbFillOnlyFrame :
    let s : State := { live1 with din := [0x62] }
    Shape Config.params s ∧ s.phase = .live ∧ 0 < s.pendingLen.toNat ∧
      s.pendingLen.toNat + (1 : BitVec 64).toNat < Config.params.blockSize ∧ (1 : BitVec 64).toNat ≤ s.din.length :=
  ⟨⟨live1_shape.1, live1_shape.2, live1_shape.3, live1_shape.4⟩, rfl, by decide,
    Nat.lt_of_lt_of_le (by decide) blockSize_bounds.1, by decide⟩

theorem witness_StreamingEquivalence :
    let s : State := { live1 with din := [0x62, 0x63] }
    Shape Config.params s ∧ InvLen Config.params s ∧ InvZero Config.params s ∧ s.phase = .live ∧
      (([1, 0, 1] : List (BitVec 64)).map BitVec.toNat).sum = (2 : BitVec 64).toNat ∧
      (2 : BitVec 64).toNat ≤ s.din.length :=
  ⟨⟨live1_shape.1, live1_shape.2, live1_shape.3, live1_shape.4⟩, live1_invLen, live1_invZero, rfl, by decide, by decide⟩

/-- Byte 7 is a stray byte: `pending_len` is 1. -/
theorem witness_StrayBytesAreNotSeen :
    let m : Memory := [(0, 0x61), (7, 0xEE)]
    Shape Config.params live1 ∧ Shape Config.params { live1 with pending := m } ∧ live1.phase = .live ∧
      InvLen Config.params live1 ∧ (∀ a, a < live1.pendingLen.toNat → Memory.read m a = Memory.read live1.pending a) ∧
      m ≠ live1.pending ∧ ∃ t, exec (.absorb 1) { live1 with din := [0x62] } = .next t := by
  refine ⟨live1_shape, ⟨reset_stateLength, by decide, fun c h => ?_, by decide⟩, rfl, live1_invLen, fun a h => ?_,
    by decide, _, rfl⟩
  · have := blockSize_bounds.1
    rcases List.mem_cons.1 h with rfl | h
    · show 0 < _; omega
    · obtain rfl := List.mem_singleton.1 h
      exact blockSize_bounds.1
  · obtain rfl : a = 0 := Nat.lt_one_iff.1 h
    rfl

theorem witness_TransformCompressesOneBlock :
    Config.params.blockSize ≤ { live1 with din := zeros Config.params.blockSize }.din.length ∧ live1.phase = .live ∧
    Config.params.blockSize ≤ { State.reset with din := zeros Config.params.blockSize }.din.length ∧
    State.reset.phase ≠ .live :=
  ⟨Nat.le_of_eq (zeros_length _).symm, rfl, Nat.le_of_eq (zeros_length _).symm, by decide⟩

theorem witness_CompressRunSplits :
    (zeros Config.params.blockSize).length = Config.params.blockSize ∧
    (zeros (2 * Config.params.blockSize)).length = 2 * Config.params.blockSize ∧
    (zeros (1 * Config.params.blockSize)).length = 1 * Config.params.blockSize :=
  ⟨zeros_length _, zeros_length _, zeros_length _⟩

theorem witness_TwoTransformsAreOneRun :
    live0.phase = .live ∧
    2 * Config.params.blockSize ≤ { live0 with din := zeros (2 * Config.params.blockSize) }.din.length :=
  ⟨rfl, Nat.le_of_eq (zeros_length _).symm⟩

theorem witness_FinalizeEntryChecks :
    State.reset.phase ≠ .live ∧ corrupt.phase = .live ∧ Config.params.blockSize ≤ corrupt.pendingLen.toNat :=
  ⟨by decide, rfl, Nat.le_of_eq corrupt_pendingLen.symm⟩

theorem witness_FinalizePadsAndResets :
    Shape Config.params live1 ∧ InvLen Config.params live1 ∧ live1.phase = .live :=
  ⟨live1_shape, live1_invLen, rfl⟩

theorem witness_LengthFieldByteByByte :
    8 ≤ (toy 8 .big).blockSize ∧ Memory.wf (live [] 0x89abcdef 0x01234567 []).pending ∧ 7 < 8 ∧
    8 ≤ Config.params.blockSize ∧ Memory.wf live1.pending :=
  ⟨by decide, by decide, by decide, blockSize_bounds.1, live1_shape.pendingWf⟩

theorem witness_MessageIsPaddedAndCompressed :
    Shape Config.params { State.reset with din := [0x61, 0x62, 0x63, 0x64] } ∧ State.reset.phase ≠ .fault ∧
    ([0x61, 0x62, 0x63] : List Byte).length < 2 ^ 64 ∧
    ([0x61, 0x62, 0x63] : List Byte) <+: { State.reset with din := [0x61, 0x62, 0x63, 0x64] }.din :=
  ⟨⟨reset_shape.1, reset_shape.2, reset_shape.3, reset_shape.4⟩, by decide, by decide, ⟨[0x64], rfl⟩⟩

theorem witness_B2wComposesWord :
    { live0 with din := [1, 2, 3, 4, 5] }.din = 1 :: 2 :: 3 :: 4 :: [5] ∧ live0.phase ≠ .fault ∧
    { faulted0 with din := [1, 2, 3, 4, 5] }.din = 1 :: 2 :: 3 :: 4 :: [5] ∧ faulted0.phase = .fault :=
  ⟨rfl, by decide, rfl, rfl⟩

theorem witness_W2bEmitsBytes : State.reset.phase ≠ .fault ∧ faulted0.phase = .fault := ⟨by decide, rfl⟩

theorem witness_CodecRoundTrip : ([1, 2, 3, 4] : List Byte).length = 4 := rfl

end Sys2Proof.Tests
end

/-! The statements about the state of the core (spec 10_state): what every step keeps, which command writes which field,
the length counter, and reset. Every proof about a command goes through `exec_cases`: a command completes with its
effect and its answer, or it is a fault taken, which leaves the context alone. -/

namespace Sys2Proof.Machine

/-! ### What a command and a step can do -/

/-- The inversion of `exec`: the packet's payload is there, and the command completes with its effect and its data, or
is the fault of its status. -/
theorem exec_cases {i : Instr} {s t : State} (h : exec i s = .next t) :
    let n := i.payloadLen Config.params.blockSize
    ∃ payload : List Byte, payload = s.din.take n ∧ payload.length = n ∧
      ((expectedStatus Config.params i s = 0 ∧
        t = respond (0 :: commandData Config.params i payload (afterPayload n s))
          (commandEffect Config.params i payload (afterPayload n s))) ∨
      (expectedStatus Config.params i s ≠ 0 ∧ t = faulted (expectedStatus Config.params i s) (afterPayload n s))) := by
  intro n
  obtain ⟨hlen, rfl⟩ := exec_next h
  refine ⟨s.din.take n, rfl, List.length_take_of_le hlen, ?_⟩
  obtain ⟨h0, -, hbody⟩ | hfault := commandBody_cases Config.params i (s.din.take n) (afterPayload n s)
  · exact .inl ⟨h0, hbody⟩
  · exact .inr hfault

/-- The inversion of `step`: the effect of the decoded command that completes, with an answer; or, when no decoded
command completes, a fault taken after some words and some payload are consumed. -/
theorem step_cases {s t : State} (h : step s = .next t) :
    (∃ i n rest payload answer, decode s.cmd = .instr i rest ∧ expectedStatus Config.params i s = 0 ∧
      t = respond answer (commandEffect Config.params i payload (afterPayload n (afterWords rest s)))) ∨
    (∀ i rest, decode s.cmd = .instr i rest → expectedStatus Config.params i s ≠ 0) ∧
      ∃ c n rest, c ≠ 0 ∧ t = faulted c (afterPayload n (afterWords rest s)) := by
  obtain ⟨i, rest, hdec, hexec⟩ | ⟨cw, rest, hdec, rfl⟩ := step_next h
  · obtain ⟨payload, -, -, ⟨h0, rfl⟩ | ⟨hne, rfl⟩⟩ := exec_cases hexec
    · exact .inl ⟨i, _, rest, payload, _, hdec, h0, rfl⟩
    · refine .inr ⟨fun i' rest' hdec' => ?_, _, _, rest, hne, rfl⟩
      obtain ⟨rfl, -⟩ := Decoded.instr.inj (hdec.symm.trans hdec')
      exact hne
  · exact .inr ⟨fun i rest' hdec' => Decoded.noConfusion (hdec.symm.trans hdec'), 1, 0, rest, by decide, rfl⟩

/-! ### What the status OK says about the state at entry -/

section
variable {p : Params} {i : Instr} {s : State}

theorem permitted_of_expectedStatus_eq_zero (h : expectedStatus p i s = 0) : permitted i s.phase = true := by
  by_contra hperm
  unfold expectedStatus at h
  rw [if_pos (by simpa using hperm)] at h
  exact absurd h (by decide)

/-- The entry check of `ABSORB` (41_absorb R111) and of `FINALIZE` (43_finalize R151) is INV-LEN. -/
theorem invLen_of_expectedStatus_eq_zero (h : expectedStatus p i s = 0)
    (hi : (∃ len, i = .absorb len) ∨ i = .finalize) : InvLen p s := by
  have hperm := permitted_of_expectedStatus_eq_zero h
  by_contra hlen
  have hge : p.blockSize ≤ s.pendingLen.toNat := Nat.not_lt.1 hlen
  obtain ⟨len, rfl⟩ | rfl := hi <;> simp [expectedStatus, hperm, hge] at h

/-- `INIT` is refused in `FAULT` alone (45_context R201). -/
theorem expectedStatus_init : expectedStatus p .init s = 0 ↔ s.phase ≠ .fault := by
  unfold expectedStatus
  cases s.phase <;> simp [permitted]

end

/-- What a `CTXWR` that completes does: it writes the register at its index (45_context R203). -/
theorem ctxwr_effect_cases (p : Params) (idx : BitVec 16) (v : Word) (payload : List Byte) (s : State) :
    commandEffect p (.ctxwr idx v) payload s = s ∨
      ∃ r, ctxReg p idx = some r ∧ commandEffect p (.ctxwr idx v) payload s = writeCtx r v s := by
  cases hr : ctxReg p idx with
  | none => exact .inl (by simp only [commandEffect, hr])
  | some r => exact .inr ⟨r, rfl, by simp only [commandEffect, hr]⟩

/-! ### The shape of the context -/

section
variable {p : Params} {s : State}

theorem Shape.faulted (h : Shape p s) {c : Word} (hc : c ≠ 0) : Shape p (faulted c s) := by
  refine ⟨h.stateLength, h.pendingWf, h.pendingWithin, iff_of_false ?_ (not_not_intro rfl)⟩
  show ¬ (if s.faultCode = 0 then c else s.faultCode) = 0
  split <;> assumption

/-- `INIT` loads `IV` over an empty buffer (45_context R201). -/
theorem Shape.init (hp : p.Lawful) (h : Shape p s) (hph : s.phase ≠ .fault) (payload : List Byte) :
    Shape p (commandEffect p .init payload s) := by
  have hz : Shape p (zeroPend p s) := h.writePend (by simp)
  exact ⟨hp.iv_length, hz.pendingWf, hz.pendingWithin, iff_of_true (h.faultRecorded.2 hph) Phase.noConfusion⟩

/-- After `FINALIZE` the buffer is empty and `pending_len` is zero (43_finalize R158). -/
theorem finalize_empties (hp : p.Lawful) (h : Shape p s) (hi : InvLen p s) (payload : List Byte) :
    (commandEffect p .finalize payload s).pending = [] ∧ (commandEffect p .finalize payload s).pendingLen = 0 :=
  ⟨zeroPend_pending_nil (padAndCompress_spec hp h hi).2, rfl⟩

theorem Shape.finalize (hp : p.Lawful) (h : Shape p s) (hi : InvLen p s) (hph : s.phase ≠ .fault)
    (payload : List Byte) : Shape p (commandEffect p .finalize payload s) := by
  have hpad : Shape p (padAndCompress p s.pendingLen.toNat s) := (padAndCompress_spec hp h hi).2
  have hz : Shape p (zeroPend p (padAndCompress p s.pendingLen.toNat s)) := hpad.writePend (by simp)
  have hcode : (padAndCompress p s.pendingLen.toNat s).faultCode = 0 :=
    (padAndCompress_samePorts p _ s).faultCode.trans (h.faultRecorded.2 hph)
  exact ⟨hz.stateLength, hz.pendingWf, hz.pendingWithin, iff_of_true hcode Phase.noConfusion⟩

/-- A command that completes keeps the shape. -/
theorem Shape.commandEffect (hp : p.Lawful) (h : Shape p s) {i : Instr} (h0 : expectedStatus p i s = 0)
    (payload : List Byte) : Shape p (commandEffect p i payload s) := by
  cases i with
  | init => exact h.init hp (expectedStatus_init.1 h0) payload
  | absorb len =>
    show Shape p (if payload.length = 0 then s else _)
    split
    · exact h
    · exact (accumulate_spec hp (h.advanceBitlen payload.length)
        (invLen_of_expectedStatus_eq_zero h0 (.inl ⟨len, rfl⟩)) payload).shape
  | transform => exact h.dispatchCompress hp _ _ _
  | finalize =>
    have hlive : s.phase = .live := by simpa [permitted] using permitted_of_expectedStatus_eq_zero h0
    exact h.finalize hp (invLen_of_expectedStatus_eq_zero h0 (.inr rfl)) (by simp [hlive]) payload
  | ctxrd idx => exact h
  | ctxwr idx v =>
    obtain heq | ⟨r, hr, heq⟩ := ctxwr_effect_cases p idx v payload s
    · rw [heq]; exact h
    · rw [heq]; exact h.writeCtx hr v
  | b2w => exact h
  | w2b w => exact h.emit _

end

/-! ### INV-LEN and INV-ZERO -/

section
variable {p : Params} {s : State} {i : Instr}

/-- An empty buffer meets INV-LEN and INV-ZERO (10_state R25, R26). -/
theorem invLen_and_invZero_of_empty (hp : p.Lawful) (hmem : s.pending = []) (hlen : s.pendingLen = 0) :
    InvLen p s ∧ InvZero p s := by
  have hB := hp.blockSize_ge
  refine ⟨?_, fun j _ _ => by rw [hmem, Memory.read_nil]⟩
  show s.pendingLen.toNat < p.blockSize
  rw [hlen]
  exact Nat.lt_of_lt_of_le (by decide) hB

/-- INV-ZERO depends on the buffer and its length alone. -/
theorem InvZero.congr {t : State} (hi : InvZero p s) (hmem : t.pending = s.pending)
    (hlen : t.pendingLen = s.pendingLen) : InvZero p t := by
  unfold InvZero
  rw [hmem, hlen]
  exact hi

/-- Of the registers of R204 only index 2 is `pending_len`. -/
theorem writeCtx_pendingLen {r : CtxReg} (hr : r.index ≠ 0x0002) (v : Word) (s : State) :
    (writeCtx r v s).pendingLen = s.pendingLen := by
  cases r with
  | pendingLen => exact absurd rfl hr
  | _ => rfl

/-- Of the registers of R204 only those from index `0x0200` on are bytes of the buffer. -/
theorem writeCtx_pending {r : CtxReg} (hr : r.index < 0x0200) (v : Word) (s : State) :
    (writeCtx r v s).pending = s.pending := by
  cases r with
  | pendingByte j => exact absurd hr (Nat.not_lt.2 (Nat.le_add_right _ _))
  | _ => rfl

/-- What a `CTXWR` leaves, for a field that the register at its index is not. -/
theorem ctxwr_effect_field {α : Type} (f : State → α) {idx : BitVec 16} {v : Word} (payload : List Byte)
    (hf : ∀ r : CtxReg, r.index = idx.toNat → f (writeCtx r v s) = f s) :
    f (commandEffect p (.ctxwr idx v) payload s) = f s := by
  obtain heq | ⟨r, hr, heq⟩ := ctxwr_effect_cases p idx v payload s
  · rw [heq]
  · rw [heq, hf r (ctxRegAt_some hr).1.symm]

/-- `pending_len` after a `CTXWR` of an index other than 2. -/
theorem ctxwr_pendingLen {idx : BitVec 16} {v : Word} (payload : List Byte) (hidx : idx ≠ 0x0002) :
    (commandEffect p (.ctxwr idx v) payload s).pendingLen = s.pendingLen :=
  ctxwr_effect_field State.pendingLen payload fun _ hr =>
    writeCtx_pendingLen (fun h2 => hidx (BitVec.eq_of_toNat_eq (hr.symm.trans h2))) v s

/-- The buffer after a `CTXWR` of an index below the window of its bytes. -/
theorem ctxwr_pending {idx : BitVec 16} {v : Word} (payload : List Byte) (hidx : idx.toNat < 0x0200) :
    (commandEffect p (.ctxwr idx v) payload s).pending = s.pending :=
  ctxwr_effect_field State.pending payload fun _ hr => writeCtx_pending (hr ▸ hidx) v s

/-- `INIT` establishes INV-LEN and INV-ZERO (45_context R201). -/
theorem init_establishes (hp : p.Lawful) (h : Shape p s) (payload : List Byte) :
    InvLen p (commandEffect p .init payload s) ∧ InvZero p (commandEffect p .init payload s) :=
  invLen_and_invZero_of_empty hp (zeroPend_pending_nil h) rfl

/-- So does `FINALIZE` (43_finalize R158). -/
theorem finalize_establishes (hp : p.Lawful) (h : Shape p s) (hi : InvLen p s) (payload : List Byte) :
    InvLen p (commandEffect p .finalize payload s) ∧ InvZero p (commandEffect p .finalize payload s) :=
  have ⟨hmem, hlen⟩ := finalize_empties hp h hi payload
  invLen_and_invZero_of_empty hp hmem hlen

/-- No command but a `CTXWR` of `PENDING_LEN` breaks INV-LEN. -/
theorem InvLen.commandEffect (hp : p.Lawful) (h : Shape p s) (payload : List Byte) (hi : InvLen p s)
    (hw : ∀ idx v, i = .ctxwr idx v → idx ≠ 0x0002) : InvLen p (commandEffect p i payload s) := by
  cases i with
  | init => exact (init_establishes hp h payload).1
  | absorb len =>
    show InvLen p (if payload.length = 0 then s else _)
    split
    · exact hi
    · have hspec := accumulate_spec hp (h.advanceBitlen payload.length) hi payload
      exact hspec.pendingLen.trans_lt (Nat.mod_lt _ (Nat.lt_of_lt_of_le (by decide) hp.blockSize_ge))
  | transform => exact hi
  | finalize => exact (finalize_establishes hp h hi payload).1
  | ctxrd idx => exact hi
  | ctxwr idx v =>
    unfold InvLen
    rw [ctxwr_pendingLen payload (hw idx v rfl)]
    exact hi
  | b2w => exact hi
  | w2b w => exact hi

/-- No command that completes, but a `CTXWR` of `PENDING_LEN` or of a buffer byte, breaks INV-ZERO. -/
theorem InvZero.commandEffect (hp : p.Lawful) (h : Shape p s) (h0 : expectedStatus p i s = 0) (payload : List Byte)
    (hi : InvZero p s) (hw : ∀ idx v, i = .ctxwr idx v → idx ≠ 0x0002 ∧ idx.toNat < 0x0200) :
    InvZero p (commandEffect p i payload s) := by
  cases i with
  | init => exact (init_establishes hp h payload).2
  | absorb len =>
    show InvZero p (if payload.length = 0 then s else _)
    split
    · exact hi
    · have hlen : InvLen p s := invLen_of_expectedStatus_eq_zero h0 (.inl ⟨len, rfl⟩)
      exact (accumulate_spec hp (h.advanceBitlen payload.length) hlen payload).beyond hi
  | transform => exact hi
  | finalize => exact (finalize_establishes hp h (invLen_of_expectedStatus_eq_zero h0 (.inr rfl)) payload).2
  | ctxrd idx => exact hi
  | ctxwr idx v =>
    obtain ⟨h2, h200⟩ := hw idx v rfl
    exact hi.congr (ctxwr_pending payload h200) (ctxwr_pendingLen payload h2)
  | b2w => exact hi
  | w2b w => exact hi

end

/-! ### Which command writes which field -/

section
variable {p : Params} {i : Instr} {payload : List Byte} {s : State}

/-- The writers of `state` (10_state R20, R21). -/
theorem commandEffect_state_writers (h : (commandEffect p i payload s).state ≠ s.state) :
    i = .init ∨ (∃ len, i = .absorb len) ∨ i = .transform ∨ i = .finalize ∨ ∃ idx v, i = .ctxwr idx v := by
  cases i with
  | ctxrd idx => exact absurd rfl h
  | b2w => exact absurd rfl h
  | w2b w => exact absurd rfl h
  | _ => simp

/-- The writers of the counter halves, the buffer and `pending_len` (10_state R20, R22). -/
theorem commandEffect_buffer_writers
    (h : (commandEffect p i payload s).bitlenLo ≠ s.bitlenLo ∨
      (commandEffect p i payload s).bitlenHi ≠ s.bitlenHi ∨
      (commandEffect p i payload s).pending ≠ s.pending ∨
      (commandEffect p i payload s).pendingLen ≠ s.pendingLen) :
    i = .init ∨ (∃ len, i = .absorb len) ∨ i = .finalize ∨ ∃ idx v, i = .ctxwr idx v := by
  have untouched : ¬ (s.bitlenLo ≠ s.bitlenLo ∨ s.bitlenHi ≠ s.bitlenHi ∨ s.pending ≠ s.pending ∨
      s.pendingLen ≠ s.pendingLen) := by simp
  cases i with
  | transform => exact absurd h untouched
  | ctxrd idx => exact absurd h untouched
  | b2w => exact absurd h untouched
  | w2b w => exact absurd h untouched
  | _ => simp

/-- The writers of `phase` that complete (60_exceptions R247). -/
theorem commandEffect_phase_writers (h : (commandEffect p i payload s).phase ≠ s.phase) :
    i = .init ∨ i = .finalize := by
  rw [(commandEffect_frame p i payload s).1] at h
  cases i with
  | init => exact .inl rfl
  | finalize => exact .inr rfl
  | _ => exact absurd rfl h

/-- The commands that dispatch (46_plugin R229). -/
theorem commandEffect_trace_writers (h : (commandEffect p i payload s).trace ≠ s.trace) :
    (∃ len, i = .absorb len) ∨ i = .transform ∨ i = .finalize := by
  cases i with
  | init => exact absurd rfl h
  | ctxrd idx => exact absurd rfl h
  | ctxwr idx v => exact absurd (ctxwr_effect_field State.trace payload fun r _ => by cases r <;> rfl) h
  | b2w => exact absurd rfl h
  | w2b w => exact absurd rfl h
  | _ => simp

/-- The commands that emit (30_encoding R91). -/
theorem commandEffect_dout_writers (h : (commandEffect p i payload s).dout ≠ s.dout) :
    i = .finalize ∨ ∃ w, i = .w2b w := by
  cases i with
  | finalize => exact .inl rfl
  | w2b w => exact .inr ⟨w, rfl⟩
  | absorb len =>
    refine absurd ?_ h
    show (if payload.length = 0 then s else _).dout = s.dout
    split
    · rfl
    · exact (accumulate_samePorts p _ payload (advanceBitlen payload.length s)).dout
  | ctxwr idx v => exact absurd (ctxwr_effect_field State.dout payload fun r _ => by cases r <;> rfl) h
  | init => exact absurd rfl h
  | transform => exact absurd rfl h
  | ctxrd idx => exact absurd rfl h
  | b2w => exact absurd rfl h

end

/-! ### The length counter -/

/-- `BitlenAdd` adds `8 * len` modulo `2^64`: the carry test and the high part together are exact (41_absorb R114). -/
theorem bitlenAdd_value (lo hi : Word) (len : Nat) :
    (bitlenAdd lo hi len).2.toNat * 2 ^ 32 + (bitlenAdd lo hi len).1.toNat =
      (hi.toNat * 2 ^ 32 + lo.toNat + 8 * len) % 2 ^ 64 := by
  have hlo := lo.isLt
  have hhi := hi.isLt
  simp only [bitlenAdd, bitCountLow, carryOut, BitVec.lt_def, BitVec.toNat_add, BitVec.toNat_ofNat]
  split <;> simp <;> omega

theorem bitlen_lt (s : State) : bitlen s < 2 ^ 64 := by
  have hlo := s.bitlenLo.isLt
  have hhi := s.bitlenHi.isLt
  unfold bitlen
  omega

theorem bitlen_congr {s t : State} (hlo : t.bitlenLo = s.bitlenLo) (hhi : t.bitlenHi = s.bitlenHi) :
    bitlen t = bitlen s := by
  rw [bitlen, bitlen, hlo, hhi]

/-- What leaves the counter adds zero bytes to it. -/
theorem bitlen_add_zero (s : State) : bitlen s = (bitlen s + 8 * 0) % 2 ^ 64 := by
  rw [Nat.mul_zero, Nat.add_zero, Nat.mod_eq_of_lt (bitlen_lt s)]

/-- Of the registers of R204 only the indices 0 and 1 are halves of the counter. -/
theorem writeCtx_bitlen {r : CtxReg} (hlo : r.index ≠ 0x0000) (hhi : r.index ≠ 0x0001) (v : Word) (s : State) :
    bitlen (writeCtx r v s) = bitlen s := by
  cases r with
  | bitlenLo => exact absurd rfl hlo
  | bitlenHi => exact absurd rfl hhi
  | _ => rfl

/-- `ABSORB` counts its payload (41_absorb R113). -/
theorem absorb_bitlen (p : Params) (len : BitVec 64) (payload : List Byte) (s : State) :
    bitlen (commandEffect p (.absorb len) payload s) = (bitlen s + 8 * payload.length) % 2 ^ 64 := by
  show bitlen (if payload.length = 0 then s else _) = _
  split
  · rename_i hlen
    rw [hlen]
    exact bitlen_add_zero s
  · have hacc := accumulate_samePorts p s.pendingLen.toNat payload (advanceBitlen payload.length s)
    rw [bitlen_congr hacc.bitlenLo hacc.bitlenHi]
    exact bitlenAdd_value s.bitlenLo s.bitlenHi payload.length

/-- A command that completes, and neither resets the counter nor writes a half of it, adds the bytes it absorbs
(10_state R28). -/
theorem commandEffect_bitlen (p : Params) {i : Instr} {payload : List Byte} (s : State)
    (hlen : payload.length = i.payloadLen p.blockSize) (hinit : i ≠ .init) (hfin : i ≠ .finalize)
    (hw : ∀ idx v, i = .ctxwr idx v → idx ≠ 0x0000 ∧ idx ≠ 0x0001) :
    bitlen (commandEffect p i payload s) = (bitlen s + 8 * absorbedBytes i) % 2 ^ 64 := by
  cases i with
  | init => exact absurd rfl hinit
  | finalize => exact absurd rfl hfin
  | absorb len => rw [absorb_bitlen, hlen]; rfl
  | ctxwr idx v =>
    obtain ⟨h0, h1⟩ := hw idx v rfl
    refine (ctxwr_effect_field bitlen payload fun r hr => ?_).trans (bitlen_add_zero s)
    exact writeCtx_bitlen (fun h => h0 (BitVec.eq_of_toNat_eq (hr.symm.trans h)))
      (fun h => h1 (BitVec.eq_of_toNat_eq (hr.symm.trans h))) v s
  | transform => exact bitlen_add_zero s
  | ctxrd idx => exact bitlen_add_zero s
  | b2w => exact bitlen_add_zero s
  | w2b w => exact bitlen_add_zero s

/-! ### The statements -/

/-- Settles O12: a command that completes keeps the shape by its effect, a fault by recording its code. -/
theorem stepKeepsShape : Obligations.StepKeepsShape := by
  intro s t hs hstep
  obtain ⟨i, n, rest, payload, answer, -, h0, rfl⟩ | ⟨-, c, n, rest, hc, rfl⟩ := step_cases hstep
  · exact (((hs.afterWords rest).afterPayload _).commandEffect Config.params_lawful h0 payload).respond answer
  · exact ((hs.afterWords rest).afterPayload n).faulted hc

/-- Settles O13: the effect of a command keeps each invariant but for the `CTXWR` excluded, a fault leaves the buffer
and its length, and outside `FAULT` the command `INIT` completes. -/
theorem bufferInvariantsKept : Obligations.BufferInvariantsKept := by
  intro s t hs hstep
  have hp := Config.params_lawful
  obtain ⟨i, n, rest, payload, answer, hdec, h0, rfl⟩ | ⟨hstatus, c, n, rest, -, rfl⟩ := step_cases hstep
  · have hs' := (hs.afterWords rest).afterPayload n
    refine ⟨fun hw hi => ?_, fun hw hi => ?_, fun rest' hdec' _ => ?_⟩
    · exact InvLen.commandEffect hp hs' payload hi fun idx v h => hw idx v rest (h ▸ hdec)
    · exact InvZero.commandEffect hp hs' h0 payload hi fun idx v h => hw idx v rest (h ▸ hdec)
    · obtain ⟨rfl, -⟩ := Decoded.instr.inj (hdec.symm.trans hdec')
      exact init_establishes hp hs' payload
  · exact ⟨fun _ hi => hi, fun _ hi => hi, fun rest' hdec hph =>
      absurd (expectedStatus_init.2 hph) (hstatus .init rest' hdec)⟩

/-- Settles O19: the writers of each field are those of the effect of a command, and a fault writes `phase` and
`fault_code` alone. -/
theorem fieldsChangeOnlyByTheirWriters : Obligations.FieldsChangeOnlyByTheirWriters := by
  intro i s t hexec
  obtain ⟨payload, -, -, ⟨-, rfl⟩ | ⟨-, rfl⟩⟩ := exec_cases hexec
  · obtain ⟨-, hcode, -⟩ := commandEffect_frame Config.params i payload
      (afterPayload (i.payloadLen Config.params.blockSize) s)
    exact ⟨commandEffect_state_writers, commandEffect_buffer_writers,
      fun h => .inr (commandEffect_phase_writers h), fun h => absurd hcode h,
      commandEffect_trace_writers, commandEffect_dout_writers⟩
  · refine ⟨fun h => absurd rfl h, fun h => ?_, fun _ => .inl rfl, fun h => ⟨?_, rfl⟩, fun h => absurd rfl h,
      fun h => absurd rfl h⟩
    · obtain h | h | h | h := h <;> exact absurd rfl h
    · by_contra hne
      exact h (if_neg hne)

/-- Settles O28: a command that completes adds the bytes it absorbs, a fault leaves both halves. -/
theorem counterCountsAbsorbedBytes : Obligations.CounterCountsAbsorbedBytes := by
  intro i s t hexec hinit hfin hw
  obtain ⟨payload, -, hlen, ⟨h0, rfl⟩ | ⟨hne, rfl⟩⟩ := exec_cases hexec
  · rw [if_pos h0]
    exact commandEffect_bitlen Config.params _ hlen hinit hfin hw
  · rw [if_neg hne]
    exact bitlen_add_zero s

/-- Settles O1: the reset state field by field. -/
theorem resetLeavesResetValues : Obligations.ResetLeavesResetValues := by
  intro s
  exact ⟨rfl, fun i hi => List.getElem?_replicate_of_lt hi, List.length_replicate, rfl, rfl, Memory.read_nil,
    rfl, rfl, rfl, rfl, rfl, rfl, rfl, rfl⟩

/-- Settles O2: the reset buffer is empty, and neither `FAULT` nor a code is recorded. -/
theorem resetMeetsInvariants : Obligations.ResetMeetsInvariants := by
  obtain ⟨hlen, hzero⟩ := invLen_and_invZero_of_empty (s := State.reset) Config.params_lawful rfl rfl
  refine ⟨⟨List.length_replicate, Memory.wf_nil, fun c hc => ?_, by decide⟩, hlen, hzero, rfl, by decide⟩
  exact absurd hc List.not_mem_nil

end Sys2Proof.Machine

/-! The statements about command words and packets (spec 30_encoding): the decoder against the encoder and the opcode
map, when a word is illegal, when a step stops, and what a packet takes from the ports and is answered. Decoding
turns on `decode_eq_instr_iff`, that words decode to a command exactly when they are its encoding followed by the rest. -/

namespace Sys2Proof

/-! ### The rows of the opcode map -/

theorem Opcode.exists_op_eq_iff (x : BitVec 8) : (∃ op : Opcode, op.op = x) ↔ x ≠ 0x00 ∧ x.toNat < 0x09 := by
  constructor
  · rintro ⟨op, rfl⟩
    cases op <;> decide
  · rintro ⟨h0, h9⟩
    have hpos : 0 < x.toNat := Nat.pos_of_ne_zero fun h => h0 (BitVec.eq_of_toNat_eq h)
    have hlist : x.toNat ∈ opcodes.map fun op => op.op.toNat := by
      simp [opcodes, Opcode.op]
      omega
    obtain ⟨op, -, hop⟩ := List.mem_map.1 hlist
    exact ⟨op, BitVec.eq_of_toNat_eq hop⟩

theorem Opcode.hasIdx_eq_false_iff (op : Opcode) : op.hasIdx = false ↔ op.op ≠ 0x05 ∧ op.op ≠ 0x06 := by
  cases op <;> decide

theorem opcodeOf_eq_some_iff {cw : Word} {op : Opcode} : opcodeOf cw = some op ↔ (opRow op).selects cw = true :=
  ⟨selects_of_opcodeOf, opcodeOf_eq_some⟩

/-- The conditions of R88 are that no row selects the word. -/
theorem opcodeOf_eq_none_iff {cw : Word} : opcodeOf cw = none ↔ Machine.IllegalWord cw := by
  constructor
  · intro hnone
    by_contra hlegal
    simp only [Machine.IllegalWord, not_or, not_and, not_not] at hlegal
    obtain ⟨h0, h9, hrsv, hidx⟩ := hlegal
    obtain ⟨op, hop⟩ := (Opcode.exists_op_eq_iff _).2 ⟨h0, Nat.not_le.1 h9⟩
    have hsel : (opRow op).selects cw = true := (opRow_selects cw op).2 ⟨hop.symm, hrsv, fun hno => by
      obtain ⟨h5, h6⟩ := op.hasIdx_eq_false_iff.1 hno
      by_contra hne
      exact h6 (hop.trans (hidx hne (hop ▸ h5)))⟩
    rw [opcodeOf_eq_some hsel] at hnone
    cases hnone
  · intro hill
    cases hf : opcodeOf cw with
    | none => rfl
    | some op =>
      obtain ⟨hop, hrsv, hidx⟩ := (opRow_selects cw op).1 (selects_of_opcodeOf hf)
      obtain ⟨h0, h9⟩ := (Opcode.exists_op_eq_iff _).1 ⟨op, hop.symm⟩
      obtain h | h | h | ⟨hne, h5, h6⟩ := hill
      · exact absurd h h0
      · exact absurd h9 (Nat.not_lt.2 h)
      · exact absurd hrsv h
      · exact absurd (hidx (op.hasIdx_eq_false_iff.2 ⟨hop ▸ h5, hop ▸ h6⟩)) hne

/-- A word that a row selects is the row's command word at the word's own `IDX` (R82). -/
theorem eq_commandWord_of_selects {cw : Word} {op : Opcode} (h : (opRow op).selects cw = true) :
    cw = commandWord op.op (idxField cw) := by
  obtain ⟨hop, hrsv, -⟩ := (opRow_selects cw op).1 h
  exact word_ext (by simpa using hop) (by simp) (by simpa using hrsv)

/-- In a row without an index the command word is fixed (R83). -/
theorem eq_commandWord_zero_of_selects {cw : Word} {op : Opcode} (h : (opRow op).selects cw = true)
    (hno : op.hasIdx = false) : cw = commandWord op.op 0 := by
  obtain ⟨-, -, hidx⟩ := (opRow_selects cw op).1 h
  rw [← hidx hno]
  exact eq_commandWord_of_selects h

/-! ### The decoder -/

theorem decode_cons_of_some {cw : Word} {op : Opcode} (h : opcodeOf cw = some op) (rest : List Word) :
    decode (cw :: rest) = decodeOperands cw rest op := by
  rw [decode, h]

theorem decode_cons_of_none {cw : Word} (h : opcodeOf cw = none) (rest : List Word) :
    decode (cw :: rest) = .illegal cw rest := by
  rw [decode, h]

/-- A row reads a command or waits for its operand words (R83, R86). -/
theorem decodeOperands_cases (cw : Word) (ws : List Word) (op : Opcode) :
    (∃ i rest, decodeOperands cw ws op = .instr i rest) ∨ decodeOperands cw ws op = .noOperands := by
  cases op with
  | absorb =>
    match ws with
    | _ :: _ :: _ => exact .inl ⟨_, _, rfl⟩
    | [_] => exact .inr rfl
    | [] => exact .inr rfl
  | ctxwr =>
    match ws with
    | _ :: _ => exact .inl ⟨_, _, rfl⟩
    | [] => exact .inr rfl
  | w2b =>
    match ws with
    | _ :: _ => exact .inl ⟨_, _, rfl⟩
    | [] => exact .inr rfl
  | _ => exact .inl ⟨_, _, rfl⟩

/-- Two words are operands enough for every row (R83, R84). -/
theorem decodeOperands_pair (cw w1 w2 : Word) (op : Opcode) :
    ∃ i rest, decodeOperands cw [w1, w2] op = .instr i rest := by
  cases op <;> exact ⟨_, _, rfl⟩

/-- What a row reads from a word that it selects is encoded by that word and the operand words read. -/
theorem encode_of_decodeOperands {cw : Word} {op : Opcode} (hsel : (opRow op).selects cw = true) {ws : List Word}
    {i : Instr} {rest : List Word} (h : decodeOperands cw ws op = .instr i rest) : cw :: ws = encode i ++ rest := by
  have hzero := eq_commandWord_zero_of_selects hsel
  have hidx := eq_commandWord_of_selects hsel
  cases op with
  | init => cases h; rw [hzero rfl]; rfl
  | transform => cases h; rw [hzero rfl]; rfl
  | finalize => cases h; rw [hzero rfl]; rfl
  | b2w => cases h; rw [hzero rfl]; rfl
  | ctxrd => cases h; exact congrArg (· :: ws) hidx
  | absorb =>
    match ws, h with
    | lo :: hi :: ws', h =>
      cases h
      rw [encode, assembleLen_low, assembleLen_high, hzero rfl]
      rfl
  | ctxwr =>
    match ws, h with
    | value :: ws', h => cases h; exact congrArg (· :: value :: rest) hidx
  | w2b =>
    match ws, h with
    | word :: ws', h => cases h; rw [hzero rfl]; rfl

/-- The command word of a row is decoded by that row. -/
theorem decode_commandWord (op : Opcode) (idx : BitVec 16) (h : op.hasIdx = false → idx = 0) (rest : List Word) :
    decode (commandWord op.op idx :: rest) = decodeOperands (commandWord op.op idx) rest op :=
  decode_cons_of_some (opcodeOf_commandWord op idx h) rest

theorem decode_encode (i : Instr) (rest : List Word) : decode (encode i ++ rest) = .instr i rest := by
  cases i with
  | init => exact decode_commandWord .init 0 (fun _ => rfl) rest
  | transform => exact decode_commandWord .transform 0 (fun _ => rfl) rest
  | finalize => exact decode_commandWord .finalize 0 (fun _ => rfl) rest
  | b2w => exact decode_commandWord .b2w 0 (fun _ => rfl) rest
  | w2b word => exact decode_commandWord .w2b 0 (fun _ => rfl) (word :: rest)
  | absorb len =>
    refine (decode_commandWord .absorb 0 (fun _ => rfl) _).trans ?_
    show Decoded.instr (.absorb (assembleLen _ _)) rest = _
    rw [assembleLen_halves]
  | ctxrd idx =>
    refine (decode_commandWord .ctxrd idx (fun h => absurd h (by decide)) rest).trans ?_
    rw [decodeOperands, idxField_commandWord]
  | ctxwr idx value =>
    refine (decode_commandWord .ctxwr idx (fun h => absurd h (by decide)) (value :: rest)).trans ?_
    rw [decodeOperands, idxField_commandWord]

/-- The decoder and the encoder are inverse: a command has one spelling. -/
theorem decode_eq_instr_iff {ws : List Word} {i : Instr} {rest : List Word} :
    decode ws = .instr i rest ↔ ws = encode i ++ rest := by
  refine ⟨fun h => ?_, fun h => h ▸ decode_encode i rest⟩
  cases ws with
  | nil => cases h
  | cons cw ws =>
    cases hf : opcodeOf cw with
    | none => rw [decode_cons_of_none hf] at h; cases h
    | some op =>
      rw [decode_cons_of_some hf] at h
      exact encode_of_decodeOperands (selects_of_opcodeOf hf) h

/-- An illegal word is a packet of one word, whatever follows it (R88). -/
theorem decode_eq_illegal_iff {ws : List Word} {cw : Word} {rest : List Word} :
    decode ws = .illegal cw rest ↔ ws = cw :: rest ∧ Machine.IllegalWord cw := by
  rw [← opcodeOf_eq_none_iff]
  refine ⟨fun h => ?_, fun ⟨hws, hf⟩ => hws ▸ decode_cons_of_none hf rest⟩
  cases ws with
  | nil => cases h
  | cons w ws =>
    cases hf : opcodeOf w with
    | none => rw [decode_cons_of_none hf] at h; cases h; exact ⟨rfl, hf⟩
    | some op =>
      rw [decode_cons_of_some hf] at h
      obtain ⟨i, r, hop⟩ | hop := decodeOperands_cases w ws op <;> rw [hop] at h <;> cases h

theorem decode_eq_noCommand_iff {ws : List Word} : decode ws = .noCommand ↔ ws = [] := by
  refine ⟨fun h => ?_, fun h => h ▸ rfl⟩
  cases ws with
  | nil => rfl
  | cons w ws =>
    cases hf : opcodeOf w with
    | none => rw [decode_cons_of_none hf] at h; cases h
    | some op =>
      rw [decode_cons_of_some hf] at h
      obtain ⟨i, r, hop⟩ | hop := decodeOperands_cases w ws op <;> rw [hop] at h <;> cases h

end Sys2Proof

namespace Sys2Proof.Machine

/-! ### A step by what `CMD` decodes to -/

section
variable {s t : State} {i : Instr} {rest : List Word}

theorem step_of_instr (h : decode s.cmd = .instr i rest) : step s = exec i (afterWords rest s) := by
  rw [step, h]

theorem step_of_encode (h : s.cmd = encode i ++ rest) : step s = exec i (afterWords rest s) :=
  step_of_instr (decode_eq_instr_iff.2 h)

theorem step_of_illegal {cw : Word} (h : decode s.cmd = .illegal cw rest) :
    step s = .next (faulted 1 (afterWords rest s)) := by
  rw [step, h]
  rfl

theorem step_of_noCommand (h : decode s.cmd = .noCommand) : step s = .fault .awaitingCommand := by
  rw [step, h]

theorem step_of_noOperands (h : decode s.cmd = .noOperands) : step s = .fault .awaitingOperands := by
  rw [step, h]

/-! ### When a command stops, what it takes and what it answers -/

/-- A command stops exactly when its payload is not there (R86). -/
theorem exec_fault_iff :
    (∃ f, exec i s = .fault f) ↔ s.din.length < i.payloadLen Config.params.blockSize := by
  refine ⟨fun ⟨f, hf⟩ => ?_, fun h => ⟨_, exec_incomplete h⟩⟩
  by_contra hc
  rw [exec_complete (Nat.not_lt.1 hc)] at hf
  cases hf

theorem exec_ne_refused (i : Instr) (s : State) (r : Refusal) : exec i s ≠ .refused r := by
  by_cases hc : i.payloadLen Config.params.blockSize ≤ s.din.length
  · rw [exec_complete hc]; exact nofun
  · rw [exec_incomplete (Nat.not_le.1 hc)]; exact nofun

/-- A command, completing or faulting, takes its payload from `DIN` and no word from `CMD` (R96). -/
theorem exec_consumes (h : exec i s = .next t) :
    t.cmd = s.cmd ∧ t.din = s.din.drop (i.payloadLen Config.params.blockSize) := by
  obtain ⟨payload, -, -, ⟨-, rfl⟩ | ⟨-, rfl⟩⟩ := exec_cases h
  · obtain ⟨-, -, hcmd, hdin, -⟩ := commandEffect_frame Config.params i payload
      (afterPayload (i.payloadLen Config.params.blockSize) s)
    exact ⟨hcmd, hdin⟩
  · exact ⟨rfl, rfl⟩

/-- A `CTXRD` that completes has found a register (45_context R202). -/
theorem ctxReg_of_ctxrd_ok {p : Params} {idx : BitVec 16} (h : expectedStatus p (.ctxrd idx) s = 0) :
    ∃ r, ctxReg p idx = some r := by
  cases hr : ctxReg p idx with
  | some r => exact ⟨r, rfl⟩
  | none =>
    have hmapped : mappedIndex p idx.toNat = false := (ctxRegAt_none _).1 hr
    simp [expectedStatus, permitted, hmapped] at h

/-- A command that completes answers the data words of R91. -/
theorem commandData_length {p : Params} (h : expectedStatus p i s = 0) (payload : List Byte) (u : State) :
    (commandData p i payload u).length = dataWords i := by
  cases i with
  | ctxrd idx =>
    obtain ⟨r, hr⟩ := ctxReg_of_ctxrd_ok h
    simp only [commandData, hr]
    rfl
  | _ => rfl

/-- A command answers one status word; data and output follow only when it is OK (R91). -/
theorem exec_answers (h : exec i s = .next t) :
    ∃ (status : Word) (data : List Word) (out : List Byte),
      t.rsp = s.rsp ++ status :: data ∧ t.dout = s.dout ++ out ∧
      (status = 0 → data.length = dataWords i ∧ out.length = outputBytes Config.params i) ∧
      (status ≠ 0 → data = [] ∧ out = [] ∧ status.toNat ≤ 4) := by
  obtain ⟨payload, -, -, ⟨h0, rfl⟩ | ⟨hne, rfl⟩⟩ := exec_cases h
  · let u := afterPayload (i.payloadLen Config.params.blockSize) s
    obtain ⟨-, -, -, -, hrsp⟩ := commandEffect_frame Config.params i payload u
    obtain ⟨out, hdout, hout⟩ := commandEffect_dout Config.params_lawful i payload u
    exact ⟨0, _, out, congrArg (· ++ _) hrsp, hdout, fun _ => ⟨commandData_length h0 payload u, hout⟩,
      fun hne => absurd rfl hne⟩
  · refine ⟨_, [], [], rfl, (List.append_nil _).symm, fun h0 => absurd h0 hne, fun _ => ⟨rfl, rfl, ?_⟩⟩
    obtain hst | hst | hst | hst := expectedStatus_range Config.params i s <;> rw [hst] <;> decide

end

/-! ### Placing and issuing a packet -/

theorem decode_tableWords {nbits w : Nat} {i : Instr} (h : decodeTableWord nbits w = some i) :
    ∃ rest, decode (tableWords nbits w) = .instr i rest := by
  unfold decodeTableWord at h
  split at h
  · cases h; exact ⟨_, by assumption⟩
  all_goals cases h

/-- The words placed for a number that decodes are the encoding of its command (log 6). -/
theorem packetWords_eq_encode {nbits w : Nat} {i : Instr} (h : decodeTableWord nbits w = some i) :
    packetWords nbits w = encode i := by
  obtain ⟨rest, hdec⟩ := decode_tableWords h
  have hwords := decode_eq_instr_iff.1 hdec
  rw [packetWords, hdec]
  show (tableWords nbits w).take (encode i).length = encode i
  rw [hwords, List.take_left]

theorem packetPayload_eq_zeros {nbits w : Nat} {i : Instr} (h : decodeTableWord nbits w = some i) :
    packetPayload nbits w = zeros (i.payloadLen Config.params.blockSize) := by
  rw [packetPayload, h]

/-! ### The statements -/

/-- Settles O6: row by row, the command word is found by its fields and the operands are read back. -/
theorem decodeOfEncode : Obligations.DecodeOfEncode := decode_encode

/-- Settles O4: no row selects a word exactly under the conditions of R88. -/
theorem illegalWordTakesFault : Obligations.IllegalWordTakesFault := by
  refine ⟨fun cw rest => ?_, by decide, by decide, fun s cw rest hcmd hill => ?_⟩
  · rw [decode_eq_illegal_iff, eq_self, true_and]
  · exact step_of_illegal (decode_eq_illegal_iff.2 ⟨hcmd, hill⟩)

/-- Settles O5: the rows differ in `OP`, and two words are operands enough for the row found. -/
theorem everyWordDecodesOnce : Obligations.EveryWordDecodesOnce := by
  refine ⟨fun cw op op' => opRow_selects_unique, fun cw op => opcodeOf_eq_some_iff, fun cw w1 w2 => ?_⟩
  cases hf : opcodeOf cw with
  | none => exact .inr (decode_cons_of_none hf _)
  | some op =>
    rw [decode_cons_of_some hf]
    exact .inl (decodeOperands_pair cw w1 w2 op)

/-- Settles O7: a word that a row selects is that row's command word, since its three fields agree. -/
theorem encodeOfDecode : Obligations.EncodeOfDecode := fun _ _ _ => decode_eq_instr_iff.1

/-- Settles O9, by what `CMD` decodes to. -/
theorem stopsOnlyOnIncompletePacket : Obligations.StopsOnlyOnIncompletePacket := by
  intro s
  rw [← decode_eq_noCommand_iff]
  cases hdec : decode s.cmd with
  | instr i rest =>
    rw [step_of_instr hdec]
    refine ⟨exec_fault_iff.trans ⟨fun h => .inr (.inr ⟨i, rest, rfl, h⟩), ?_⟩, exec_ne_refused i _⟩
    rintro (h | h | ⟨i', rest', h, hlen⟩)
    · cases h
    · cases h
    · cases h; exact hlen
  | illegal cw rest =>
    rw [step_of_illegal hdec]
    simp
  | noCommand =>
    rw [step_of_noCommand hdec]
    simp
  | noOperands =>
    rw [step_of_noOperands hdec]
    simp

/-- Settles O11: the payload of a well-framed packet is there, so its command does not wait. -/
theorem issuedPacketRunsWhole : Obligations.IssuedPacketRunsWhole := by
  intro s k hcmd hdin hframed
  have hlen : k.payload.length = k.instr.payloadLen Config.params.blockSize := by
    simpa [Packet.wellFramed] using hframed
  have hwords : (issuePacket k s).cmd = encode k.instr ++ [] := by simp [issuePacket, hcmd]
  have hafter : afterWords [] (issuePacket k s) = { s with din := k.payload } := by
    simp [afterWords, issuePacket, hcmd, hdin]
  have hstep := step_of_encode hwords
  rw [hafter] at hstep
  have hexec := exec_complete (i := k.instr) (s := { s with din := k.payload }) (Nat.le_of_eq hlen.symm)
  obtain ⟨htcmd, htdin⟩ := exec_consumes hexec
  exact ⟨_, hstep.trans hexec, hstep, htcmd.trans hcmd, htdin.trans (List.drop_of_length_le (Nat.le_of_eq hlen))⟩

/-- Settles O18: a command takes its packet and answers as R91 says, an illegal word is taken alone. -/
theorem packetConsumedAnsweredOnce : Obligations.PacketConsumedAnsweredOnce := by
  intro s t hstep
  obtain ⟨i, rest, hdec, hexec⟩ | ⟨cw, rest, hdec, rfl⟩ := step_next hstep
  · obtain ⟨hlen, -⟩ := exec_next hexec
    obtain ⟨hcmd, hdin⟩ := exec_consumes hexec
    obtain ⟨status, data, out, hanswer⟩ := exec_answers hexec
    exact .inl ⟨i, rest, status, data, out, hdec, decode_eq_instr_iff.1 hdec, hcmd, hlen, hdin, hanswer⟩
  · exact .inr ⟨cw, rest, hdec, (decode_eq_illegal_iff.1 hdec).1, rfl, rfl, rfl, rfl⟩

/-- Settles O3: `step` runs what the words decode to, and the words of a command decode to it. -/
theorem stepRunsDecodedCommand : Obligations.StepRunsDecodedCommand :=
  fun _ _ _ => ⟨step_of_instr, step_of_encode⟩

/-- Settles O8: the command words are the encodings of their commands, the last three meet R88. -/
theorem workedEncodingsDecode : Obligations.WorkedEncodingsDecode := by
  refine ⟨?_, ?_, ?_, ?_, ?_, ?_, ?_, ?_, ?_, ?_, ?_, ?_, ?_, ?_⟩
  iterate 11 exact decode_eq_instr_iff.2 rfl
  iterate 3 exact decode_eq_illegal_iff.2 ⟨rfl, by decide⟩

/-- Settles O10: the words placed are the encoding of the command that the number stands for. -/
theorem placedPacketRunsNext : Obligations.PlacedPacketRunsNext := by
  intro s nbits w i h
  have hwords : (s.withFetchWord nbits w).cmd = encode i ++ s.cmd := congrArg (· ++ s.cmd) (packetWords_eq_encode h)
  rw [step_of_encode hwords, ← packetPayload_eq_zeros h]
  rfl

end Sys2Proof.Machine

/-! The statements about `ABSORB` (spec 41_absorb): its entry checks, the length counter, what one `ABSORB` does to the
stream "buffered tail, then data", and streaming equivalence. The stream is cut into its whole blocks and its remainder;
cutting it after any number of bytes and going on from the remainder gives the same blocks (`wholeBlocks_append`), so
`Streamed`, what the context owes to the bytes absorbed, composes along a run of `ABSORB` commands. -/

namespace Sys2Proof.Machine

/-! ### A command by its status -/

section
variable {i : Instr} {s : State}

/-- A command whose packet is complete and whose status is OK completes. -/
theorem exec_of_status_ok (hlen : i.payloadLen Config.params.blockSize ≤ s.din.length)
    (h0 : expectedStatus Config.params i s = 0) :
    let n := i.payloadLen Config.params.blockSize
    exec i s = .next (respond (0 :: commandData Config.params i (s.din.take n) (afterPayload n s))
      (commandEffect Config.params i (s.din.take n) (afterPayload n s))) := by
  intro n
  rw [exec_complete hlen]
  obtain ⟨-, -, hbody⟩ | ⟨hne, -⟩ := commandBody_cases Config.params i (s.din.take n) (afterPayload n s)
  · exact congrArg _ hbody
  · exact absurd h0 hne

/-- A command whose packet is complete and whose status is not OK takes the fault of its status. -/
theorem exec_of_status_fault (hlen : i.payloadLen Config.params.blockSize ≤ s.din.length)
    (hne : expectedStatus Config.params i s ≠ 0) :
    exec i s = .next (faulted (expectedStatus Config.params i s)
      (afterPayload (i.payloadLen Config.params.blockSize) s)) := by
  rw [exec_complete hlen]
  obtain ⟨h0, -⟩ | ⟨-, hbody⟩ := commandBody_cases Config.params i
    (s.din.take (i.payloadLen Config.params.blockSize)) (afterPayload (i.payloadLen Config.params.blockSize) s)
  · exact absurd h0 hne
  · exact congrArg _ hbody

end

/-! ### The entry checks -/

section
variable {p : Params} {s : State}

theorem expectedStatus_absorb_of_not_live (len : BitVec 64) (h : s.phase ≠ .live) :
    expectedStatus p (.absorb len) s = 2 := by
  simp [expectedStatus, permitted, h]

theorem expectedStatus_absorb_of_live (len : BitVec 64) (h : s.phase = .live) :
    expectedStatus p (.absorb len) s = if p.blockSize ≤ s.pendingLen.toNat then 4 else 0 := by
  simp [expectedStatus, permitted, h]

theorem expectedStatus_absorb_ok (len : BitVec 64) (h : s.phase = .live) (hi : InvLen p s) :
    expectedStatus p (.absorb len) s = 0 := by
  rw [expectedStatus_absorb_of_live len h, if_neg (Nat.not_le.2 hi)]

end

/-! ### `BitlenAdd` -/

theorem bitlenAdd_low_toNat (lo hi : Word) (len : Nat) :
    (bitlenAdd lo hi len).1.toNat = (lo.toNat + 8 * len % 2 ^ 32) % 2 ^ 32 := by
  simp [bitlenAdd, bitCountLow, Nat.mul_comm]

/-- The carry test is exact: one addition wraps at most once (41_absorb R115). -/
theorem bitlenAdd_low_lt_iff (lo hi : Word) (len : Nat) :
    (bitlenAdd lo hi len).1 < lo ↔ 2 ^ 32 ≤ lo.toNat + 8 * len % 2 ^ 32 := by
  have hlo := lo.isLt
  have hadd := Nat.mod_lt (8 * len) (Nat.two_pow_pos 32)
  rw [BitVec.lt_def, bitlenAdd_low_toNat]
  omega

/-- Nothing added to the low half: it stays and carries nothing (41_absorb R115). -/
theorem bitlenAdd_of_low_zero (lo hi : Word) {len : Nat} (h : 8 * len % 2 ^ 32 = 0) :
    bitlenAdd lo hi len = (lo, hi + BitVec.ofNat 32 (len / 2 ^ 29)) := by
  have hlow : bitCountLow len = 0 := by
    apply BitVec.eq_of_toNat_eq
    rw [bitCountLow, BitVec.toNat_ofNat, Nat.mul_comm, h]
    rfl
  simp [bitlenAdd, hlow, carryOut]

/-- The two halves are determined by the counter. -/
theorem bitlen_halves_eq {s t : State} (h : bitlen t = bitlen s) :
    t.bitlenLo = s.bitlenLo ∧ t.bitlenHi = s.bitlenHi := by
  have hs := s.bitlenLo.isLt
  have ht := t.bitlenLo.isLt
  unfold bitlen at h
  exact ⟨BitVec.eq_of_toNat_eq (by omega), BitVec.eq_of_toNat_eq (by omega)⟩

/-! ### Whole blocks and remainder of a stream -/

/-- The whole blocks of a stream: the first `B * (t / B)` of its `t` bytes (41_absorb R125). -/
def wholeBlocks (B : Nat) (stream : List Byte) : List Byte := stream.take (B * (stream.length / B))

/-- What stands behind the whole blocks: the last `t mod B` bytes (41_absorb R125). -/
def remainder (B : Nat) (stream : List Byte) : List Byte := stream.drop (B * (stream.length / B))

section
variable {B : Nat}

theorem wholeBlocks_append_remainder (xs : List Byte) : wholeBlocks B xs ++ remainder B xs = xs :=
  List.take_append_drop _ _

theorem wholeBlocks_length (xs : List Byte) : (wholeBlocks B xs).length = B * (xs.length / B) :=
  List.length_take_of_le (Nat.mul_div_le _ _)

theorem wholeBlocks_of_lt {xs : List Byte} (h : xs.length < B) : wholeBlocks B xs = [] := by
  rw [wholeBlocks, Nat.div_eq_of_lt h]
  rfl

theorem remainder_of_lt {xs : List Byte} (h : xs.length < B) : remainder B xs = xs := by
  rw [remainder, Nat.div_eq_of_lt h]
  rfl

section
variable {w : List Byte} {q : Nat} (hB : 0 < B) (hw : w.length = B * q)
include hB hw

/-- Bytes that are whole blocks already are so many blocks in front of any stream. -/
theorem blockCount_blocks_append (xs : List Byte) : (w ++ xs).length / B = q + xs.length / B := by
  rw [List.length_append, hw, Nat.mul_add_div hB]

theorem wholeBlocks_blocks_append (xs : List Byte) : wholeBlocks B (w ++ xs) = w ++ wholeBlocks B xs := by
  rw [wholeBlocks, blockCount_blocks_append hB hw, Nat.mul_add, ← hw, take_append_add]
  rfl

theorem remainder_blocks_append (xs : List Byte) : remainder B (w ++ xs) = remainder B xs := by
  rw [remainder, blockCount_blocks_append hB hw, Nat.mul_add, ← hw, drop_append_add]
  rfl

end

/-- A stream behind its own whole blocks. -/
theorem append_eq_wholeBlocks_append (B : Nat) (xs ys : List Byte) :
    xs ++ ys = wholeBlocks B xs ++ (remainder B xs ++ ys) := by
  rw [← List.append_assoc, wholeBlocks_append_remainder]

/-- The blocks of a stream are the blocks of its front, then those of what the front leaves and the rest. -/
theorem wholeBlocks_append (hB : 0 < B) (xs ys : List Byte) :
    wholeBlocks B (xs ++ ys) = wholeBlocks B xs ++ wholeBlocks B (remainder B xs ++ ys) := by
  rw [append_eq_wholeBlocks_append B xs ys, wholeBlocks_blocks_append hB (wholeBlocks_length xs)]

theorem remainder_append (hB : 0 < B) (xs ys : List Byte) :
    remainder B (xs ++ ys) = remainder B (remainder B xs ++ ys) := by
  rw [append_eq_wholeBlocks_append B xs ys, remainder_blocks_append hB (wholeBlocks_length xs)]

theorem blockCount_append (hB : 0 < B) (xs ys : List Byte) :
    (xs ++ ys).length / B = xs.length / B + (remainder B xs ++ ys).length / B := by
  rw [append_eq_wholeBlocks_append B xs ys, blockCount_blocks_append hB (wholeBlocks_length xs)]

end

/-- A run over some whole blocks and a run from its result are one run (46_plugin R222). -/
theorem compressN_append (p : Params) {k : Nat} (j : Nat) (σ : List Word) {w : List Byte} (xs : List Byte)
    (hw : w.length = p.blockSize * k) :
    compressN p σ (w ++ xs) (k + j) = compressN p (compressN p σ w k) xs j := by
  induction k generalizing σ w with
  | zero =>
    obtain rfl : w = [] := List.length_eq_zero_iff.1 hw
    rw [Nat.zero_add]
    rfl
  | succ k ih =>
    have hle : p.blockSize ≤ w.length := by rw [hw]; exact Nat.le_mul_of_pos_right _ (Nat.succ_pos k)
    have hrest : (w.drop p.blockSize).length = p.blockSize * k := by
      rw [List.length_drop, hw, Nat.mul_succ, Nat.add_sub_cancel]
    rw [Nat.add_right_comm, compressN, compressN, List.take_append_of_le_length hle,
      List.drop_append_of_le_length hle, ih _ hrest]

/-- `F` folded over the whole blocks of a stream (46_plugin R222). -/
def compressWhole (p : Params) (σ : List Word) (stream : List Byte) : List Word :=
  compressN p σ (wholeBlocks p.blockSize stream) (stream.length / p.blockSize)

theorem compressWhole_of_lt {p : Params} {xs : List Byte} (h : xs.length < p.blockSize) (σ : List Word) :
    compressWhole p σ xs = σ := by
  rw [compressWhole, Nat.div_eq_of_lt h]
  rfl

theorem compressWhole_append {p : Params} (hB : 0 < p.blockSize) (σ : List Word) (xs ys : List Byte) :
    compressWhole p σ (xs ++ ys) = compressWhole p (compressWhole p σ xs) (remainder p.blockSize xs ++ ys) := by
  rw [compressWhole, wholeBlocks_append hB, blockCount_append hB, compressN_append p _ σ _ (wholeBlocks_length xs)]
  rfl

/-! ### The dispatches of one `ABSORB` -/

section
variable {p : Params} {T data : List Byte}

theorem absorbEvents_of_empty (data : List Byte) : absorbEvents p [] data = bulkEvents p data := if_pos rfl

theorem absorbEvents_of_fill (hT : T ≠ []) (h : T.length + data.length < p.blockSize) :
    absorbEvents p T data = [] := by
  rw [absorbEvents, if_neg hT, if_neg (Nat.not_le.2 h)]

theorem absorbEvents_of_complete (hT : T ≠ []) (h : p.blockSize ≤ T.length + data.length) :
    absorbEvents p T data =
      .compress .pend 1 (T ++ data.take (p.blockSize - T.length)) ::
        bulkEvents p (data.drop (p.blockSize - T.length)) := by
  rw [absorbEvents, if_neg hT, if_pos h]

/-- The completed block of the buffer is one block (41_absorb R121). -/
theorem completedBlock_length (hT : T.length < p.blockSize) (h : p.blockSize ≤ T.length + data.length) :
    (T ++ data.take (p.blockSize - T.length)).length = p.blockSize * 1 := by
  rw [List.length_append, List.length_take]
  omega

/-- The stream behind the completed block. -/
theorem stream_eq_completedBlock_append (T data : List Byte) (k : Nat) :
    T ++ data = (T ++ data.take k) ++ data.drop k := by
  rw [List.append_assoc, List.take_append_drop]

theorem bulkEvents_blockBytes (data : List Byte) :
    (bulkEvents p data).flatMap Event.blockBytes = wholeBlocks p.blockSize data := by
  unfold bulkEvents
  split
  · simp [Event.blockBytes, wholeBlocks, Nat.mul_comm]
  · rename_i h
    rw [wholeBlocks_of_lt (Nat.not_le.1 h)]
    rfl

theorem bulkEvents_blockCount (data : List Byte) :
    ((bulkEvents p data).map Event.blockCount).sum = data.length / p.blockSize := by
  unfold bulkEvents
  split
  · simp [Event.blockCount]
  · rename_i h
    rw [Nat.div_eq_of_lt (Nat.not_le.1 h)]
    rfl

/-- The bytes dispatched, in order, are the whole blocks of the stream (41_absorb R125). -/
theorem absorbEvents_blockBytes (hT : T.length < p.blockSize) (data : List Byte) :
    (absorbEvents p T data).flatMap Event.blockBytes = wholeBlocks p.blockSize (T ++ data) := by
  by_cases hnil : T = []
  · rw [hnil, absorbEvents_of_empty, bulkEvents_blockBytes, List.nil_append]
  · by_cases h : p.blockSize ≤ T.length + data.length
    · rw [absorbEvents_of_complete hnil h, List.flatMap_cons, bulkEvents_blockBytes,
        stream_eq_completedBlock_append T data (p.blockSize - T.length),
        wholeBlocks_blocks_append (Nat.zero_lt_of_lt hT) (completedBlock_length hT h)]
      rfl
    · rw [absorbEvents_of_fill hnil (Nat.not_le.1 h), wholeBlocks_of_lt (by rw [List.length_append]; omega)]
      rfl

/-- As many blocks are dispatched as the stream has (41_absorb R126). -/
theorem absorbEvents_blockCount (hT : T.length < p.blockSize) (data : List Byte) :
    ((absorbEvents p T data).map Event.blockCount).sum = (T ++ data).length / p.blockSize := by
  by_cases hnil : T = []
  · rw [hnil, absorbEvents_of_empty, bulkEvents_blockCount, List.nil_append]
  · by_cases h : p.blockSize ≤ T.length + data.length
    · rw [absorbEvents_of_complete hnil h, List.map_cons, List.sum_cons, bulkEvents_blockCount,
        stream_eq_completedBlock_append T data (p.blockSize - T.length),
        blockCount_blocks_append (Nat.zero_lt_of_lt hT) (completedBlock_length hT h)]
      rfl
    · rw [absorbEvents_of_fill hnil (Nat.not_le.1 h), Nat.div_eq_of_lt (by rw [List.length_append]; omega)]
      rfl

end

/-! ### What one `ABSORB` does -/

theorem blockSize_pos {p : Params} (hp : p.Lawful) : 0 < p.blockSize := Nat.lt_of_lt_of_le (by decide) hp.blockSize_ge

theorem stream_length {s : State} {len : BitVec 64} (hlen : len.toNat ≤ s.din.length) :
    (tailBytes s ++ s.din.take len.toNat).length = s.pendingLen.toNat + len.toNat := by
  rw [List.length_append, tailBytes_length, List.length_take_of_le hlen]

theorem tailBytes_length_lt {p : Params} {s : State} (hi : InvLen p s) : (tailBytes s).length < p.blockSize := by
  rw [tailBytes_length]
  exact hi

theorem tailBytes_getElem? {s : State} {a : Nat} (ha : a < s.pendingLen.toNat) :
    (tailBytes s)[a]? = some (Memory.read s.pending a) := by
  simp [tailBytes, readPend, Memory.readBytes, ha]

theorem tailBytes_ne_nil {s : State} (hn : 0 < s.pendingLen.toNat) : tailBytes s ≠ [] :=
  List.ne_nil_of_length_pos (by rwa [tailBytes_length])

section
variable {p : Params} {s : State}

/-- Zero bytes leave a context with INV-LEN as it is (41_absorb R112). -/
theorem Absorbed.nil (h : Shape p s) (hi : InvLen p s) : Absorbed p s [] s := by
  have hT := tailBytes_length_lt hi
  have hdiv : (s.pendingLen.toNat + ([] : List Byte).length) / p.blockSize = 0 := Nat.div_eq_of_lt hi
  have hevents : absorbEvents p (tailBytes s) [] = [] := by
    by_cases hnil : tailBytes s = []
    · rw [hnil, absorbEvents_of_empty]
      exact if_neg (Nat.not_le.2 (Nat.zero_lt_of_lt hi))
    · exact absorbEvents_of_fill hnil hT
  refine ⟨(Nat.mod_eq_of_lt hi).symm, ?_, id, ?_, ?_, h⟩
  · rw [hdiv, List.append_nil]
    rfl
  · rw [hdiv]
    rfl
  · rw [hevents, List.append_nil]

/-- The effect of `ABSORB` is what its branches do together; advancing the counter touches nothing they read. -/
theorem absorb_absorbed (hp : p.Lawful) (h : Shape p s) (hi : InvLen p s) (len : BitVec 64) (data : List Byte) :
    Absorbed p s data (commandEffect p (.absorb len) data s) := by
  cases data with
  | nil => exact Absorbed.nil h hi
  | cons b data =>
    have hacc := accumulate_spec hp (h.advanceBitlen (b :: data).length) hi (b :: data)
    exact ⟨hacc.pendingLen, hacc.tail, hacc.beyond, hacc.state, hacc.trace, hacc.shape⟩

/-- While the stream stays below a block, the data stand behind the tail and no other byte changes (41_absorb R120). -/
theorem absorb_read_of_fill (hp : p.Lawful) (h : Shape p s) {data : List Byte}
    (len : BitVec 64) (hn : 0 < s.pendingLen.toNat) (hfill : s.pendingLen.toNat + data.length < p.blockSize)
    (a : Nat) :
    Memory.read (commandEffect p (.absorb len) data s).pending a =
      if s.pendingLen.toNat ≤ a ∧ a < s.pendingLen.toNat + data.length then data.getD (a - s.pendingLen.toNat) 0
      else Memory.read s.pending a := by
  by_cases hd : data.length = 0
  · rw [commandEffect, if_pos hd, if_neg (by omega)]
  · obtain ⟨-, -, hread, -⟩ := fillOnly_spec hp (h.advanceBitlen data.length) hfill
    rw [commandEffect, if_neg hd, accumulate, if_neg (Nat.ne_of_gt hn), if_neg (Nat.not_le.2 hfill)]
    exact hread a

/-- `ABSORB` leaves the output port alone. -/
theorem absorb_dout (p : Params) (len : BitVec 64) (data : List Byte) (s : State) :
    (commandEffect p (.absorb len) data s).dout = s.dout := by
  by_contra h
  obtain h | ⟨w, h⟩ := commandEffect_dout_writers h <;> cases h

end

/-- What an `ABSORB` of `len` bytes that completes leaves: the stream is absorbed, the counter advanced, the packet
taken and answered; every other field is as before (41_absorb R125). When no block completes, the data stand behind the
tail and every other byte of the buffer is as before (R120). -/
structure AbsorbCompletes (p : Params) (s : State) (len : BitVec 64) (t : State) : Prop
    extends Absorbed p s (s.din.take len.toNat) t where
  bitlen : bitlen t = (bitlen s + 8 * len.toNat) % 2 ^ 64
  phase : t.phase = s.phase
  faultCode : t.faultCode = s.faultCode
  cmd : t.cmd = s.cmd
  din : t.din = s.din.drop len.toNat
  rsp : t.rsp = s.rsp ++ [0]
  dout : t.dout = s.dout
  filled : 0 < s.pendingLen.toNat → s.pendingLen.toNat + len.toNat < p.blockSize → ∀ a,
    Memory.read t.pending a =
      if s.pendingLen.toNat ≤ a ∧ a < s.pendingLen.toNat + len.toNat then s.din.getD (a - s.pendingLen.toNat) 0
      else Memory.read s.pending a

/-- In `LIVE` with INV-LEN and its payload there, `ABSORB` completes (41_absorb R124). -/
theorem exec_absorb_completes {s : State} {len : BitVec 64} (h : Shape Config.params s) (hi : InvLen Config.params s)
    (hlive : s.phase = .live) (hlen : len.toNat ≤ s.din.length) :
    ∃ t, exec (.absorb len) s = .next t ∧ AbsorbCompletes Config.params s len t := by
  have habs := absorb_absorbed Config.params_lawful (h.afterPayload len.toNat) hi len (s.din.take len.toNat)
  have hd : (s.din.take len.toNat).length = len.toNat := List.length_take_of_le hlen
  have hbit := absorb_bitlen Config.params len (s.din.take len.toNat) (afterPayload len.toNat s)
  rw [hd] at hbit
  obtain ⟨hphase, hcode, hcmd, hdin, hrsp⟩ :=
    commandEffect_frame Config.params (.absorb len) (s.din.take len.toNat) (afterPayload len.toNat s)
  refine ⟨_, exec_of_status_ok (i := .absorb len) hlen (expectedStatus_absorb_ok len hlive hi),
    ⟨habs.pendingLen, habs.tail, habs.beyond, habs.state, habs.trace, habs.shape.respond _⟩,
    hbit, hphase, hcode, hcmd, hdin, congrArg (· ++ [0]) hrsp, absorb_dout _ _ _ _,
    fun hn hfill a => ?_⟩
  have hread := absorb_read_of_fill Config.params_lawful (h.afterPayload len.toNat) len hn
    (data := s.din.take len.toNat) (hd.symm ▸ hfill) a
  rw [hd, afterPayload_pendingLen, afterPayload_pending] at hread
  refine hread.trans (ite_congr rfl (fun ha => ?_) fun _ => rfl)
  rw [List.getD_eq_getElem?_getD, List.getElem?_take_of_lt (by omega), ← List.getD_eq_getElem?_getD]

/-- INV-LEN holds again (41_absorb R125). -/
theorem AbsorbCompletes.invLen {p : Params} {s t : State} {len : BitVec 64} (hp : p.Lawful)
    (h : AbsorbCompletes p s len t) : InvLen p t :=
  h.pendingLen.trans_lt (Nat.mod_lt _ (blockSize_pos hp))

/-! ### Runs of `ABSORB` -/

/-- A context in which `ABSORB` completes: `LIVE`, of the right shape, with both invariants of the buffer. -/
structure ReadyToAbsorb (p : Params) (s : State) : Prop where
  shape : Shape p s
  invLen : InvLen p s
  invZero : InvZero p s
  live : s.phase = .live

/-- What `t` owes to `s` after any `ABSORB` commands that took `data` from `DIN`, however the bytes were split
(41_absorb R127). -/
structure Streamed (p : Params) (s : State) (data : List Byte) (t : State) : Prop where
  ready : ReadyToAbsorb p t
  tail : tailBytes t = remainder p.blockSize (tailBytes s ++ data)
  state : t.state = compressWhole p s.state (tailBytes s ++ data)
  blocks : t.trace.flatMap Event.blockBytes =
    s.trace.flatMap Event.blockBytes ++ wholeBlocks p.blockSize (tailBytes s ++ data)
  bitlen : bitlen t = (bitlen s + 8 * data.length) % 2 ^ 64
  faultCode : t.faultCode = s.faultCode
  din : s.din = data ++ t.din
  dout : t.dout = s.dout

/-- One `ABSORB` streams its payload. -/
theorem AbsorbCompletes.streamed {p : Params} {s t : State} {len : BitVec 64} (hp : p.Lawful) (hs : ReadyToAbsorb p s)
    (hlen : len.toNat ≤ s.din.length) (h : AbsorbCompletes p s len t) :
    Streamed p s (s.din.take len.toNat) t where
  ready := ⟨h.shape, h.invLen hp, h.beyond hs.invZero, h.phase.trans hs.live⟩
  tail := by rw [h.tail, remainder, stream_length hlen, List.length_take_of_le hlen]
  state := by rw [h.state, compressWhole, wholeBlocks, stream_length hlen, List.length_take_of_le hlen]
  blocks := by rw [h.trace, List.flatMap_append, absorbEvents_blockBytes (tailBytes_length_lt hs.invLen)]
  bitlen := by rw [h.bitlen, List.length_take_of_le hlen]
  faultCode := h.faultCode
  din := by rw [h.din, List.take_append_drop]
  dout := h.dout

namespace Streamed

variable {p : Params} {s t u : State} {xs ys : List Byte}

theorem refl (hs : ReadyToAbsorb p s) : Streamed p s [] s := by
  have hT := tailBytes_length_lt hs.invLen
  refine ⟨hs, ?_, ?_, ?_, bitlen_add_zero s, rfl, rfl, rfl⟩ <;> rw [List.append_nil]
  · rw [remainder_of_lt hT]
  · rw [compressWhole_of_lt hT]
  · rw [wholeBlocks_of_lt hT, List.append_nil]

/-- Bytes streamed one run behind the other are one run: the second run starts at the remainder of the first. -/
theorem trans (hB : 0 < p.blockSize) (h : Streamed p s xs t) (k : Streamed p t ys u) : Streamed p s (xs ++ ys) u where
  ready := k.ready
  tail := by rw [k.tail, h.tail, ← remainder_append hB, List.append_assoc]
  state := by rw [k.state, h.state, h.tail, ← compressWhole_append hB, List.append_assoc]
  blocks := by
    rw [k.blocks, h.blocks, h.tail, List.append_assoc, ← wholeBlocks_append hB, List.append_assoc]
  bitlen := by
    rw [k.bitlen, h.bitlen, List.length_append, Nat.mul_add, ← Nat.add_assoc, Nat.mod_add_mod]
  faultCode := k.faultCode.trans h.faultCode
  din := by rw [h.din, k.din, List.append_assoc]
  dout := k.dout.trans h.dout

end Streamed

/-- A canonical buffer with INV-ZERO is determined by its tail. -/
theorem pending_eq_of_tailBytes_eq {p : Params} {t u : State} (ht : ReadyToAbsorb p t) (hu : ReadyToAbsorb p u)
    (hlen : t.pendingLen = u.pendingLen) (h : tailBytes t = tailBytes u) : t.pending = u.pending := by
  refine Memory.ext_read ht.shape.pendingWf hu.shape.pendingWf fun a => ?_
  by_cases hin : a < t.pendingLen.toNat
  · refine Option.some.inj ?_
    rw [← tailBytes_getElem? hin, ← tailBytes_getElem? (hlen ▸ hin), h]
  · by_cases hB : a < p.blockSize
    · rw [ht.invZero a (Nat.not_lt.1 hin) hB, hu.invZero a (hlen ▸ Nat.not_lt.1 hin) hB]
    · rw [Memory.read_outside ht.shape.pendingWithin (Nat.not_lt.1 hB),
        Memory.read_outside hu.shape.pendingWithin (Nat.not_lt.1 hB)]

/-- The context after streaming depends on the bytes alone. -/
theorem Streamed.sameContext {p : Params} {s t u : State} {data : List Byte} (ht : Streamed p s data t)
    (hu : Streamed p s data u) : SameContext u t := by
  have htail : tailBytes t = tailBytes u := ht.tail.trans hu.tail.symm
  have hlen : t.pendingLen = u.pendingLen :=
    BitVec.eq_of_toNat_eq (by rw [← tailBytes_length t, htail, tailBytes_length])
  obtain ⟨hlo, hhi⟩ := bitlen_halves_eq (ht.bitlen.trans hu.bitlen.symm)
  exact ⟨ht.state.trans hu.state.symm, hlo, hhi, pending_eq_of_tailBytes_eq ht.ready hu.ready hlen htail, hlen⟩

/-- A run of `ABSORB` commands streams as many bytes as their lengths sum to. -/
theorem runAbsorbs_streamed {lens : List (BitVec 64)} {s : State} (hs : ReadyToAbsorb Config.params s)
    (hlen : (lens.map BitVec.toNat).sum ≤ s.din.length) :
    ∃ t, runAbsorbs lens s = .next t ∧
      Streamed Config.params s (s.din.take (lens.map BitVec.toNat).sum) t := by
  induction lens generalizing s with
  | nil => exact ⟨s, rfl, Streamed.refl hs⟩
  | cons len lens ih =>
    have hp := Config.params_lawful
    rw [List.map_cons, List.sum_cons] at hlen ⊢
    have hfirst : len.toNat ≤ s.din.length := Nat.le_trans (Nat.le_add_right _ _) hlen
    obtain ⟨t, hexec, hdone⟩ := exec_absorb_completes hs.shape hs.invLen hs.live hfirst
    have hst := hdone.streamed hp hs hfirst
    obtain ⟨u, hrun, hsu⟩ := ih hst.ready (by rw [hdone.din, List.length_drop]; omega)
    refine ⟨u, by rw [runAbsorbs, hexec]; exact hrun, ?_⟩
    rw [List.take_add, ← hdone.din]
    exact hst.trans (blockSize_pos hp) hsu

/-! ### `FINALIZE` behind a stream -/

/-- The state after the padding blocks of a context (43_finalize R164). -/
def paddedState (p : Params) (s : State) : List Word :=
  compressN p s.state (paddingBlocks p (tailBytes s) (bitlen s)).flatten
    (paddingBlocks p (tailBytes s) (bitlen s)).length

/-- The next state of a `FINALIZE` that completes (43_finalize R161, R164, R165). -/
theorem exec_finalize_completes {s : State} (h : Shape Config.params s) (hi : InvLen Config.params s)
    (hlive : s.phase = .live) :
    let p := Config.params
    let final := paddedState p s
    exec .finalize s = .next
      { s with
        state := final, bitlenLo := 0, bitlenHi := 0, pending := [], pendingLen := 0, phase := .final,
        rsp := s.rsp ++ [0], dout := s.dout ++ p.serialize final,
        trace := s.trace ++ (paddingBlocks p (tailBytes s) (bitlen s)).map (.compress .pend 1) ++
          [.serialize final (p.serialize final)] } := by
  intro p final
  obtain ⟨⟨m, hpad⟩, hshape⟩ := padAndCompress_spec Config.params_lawful h hi
  rw [exec_finalize, finalizeBody, if_neg (not_not_intro hlive), if_neg (Nat.not_le.2 hi), clearTail_eq hshape, hpad]
  rfl

/-- The padded state depends on the context alone. -/
theorem paddedState_congr {s t : State} (p : Params) (h : SameContext s t) : paddedState p t = paddedState p s := by
  have htail : tailBytes t = tailBytes s := by rw [tailBytes, readPend, h.pending, h.pendingLen]; rfl
  rw [paddedState, paddedState, h.state, htail, bitlen_congr h.bitlenLo h.bitlenHi]

/-! ### The statements -/

/-- Settles O26: the sum is `bitlenAdd_value`, the carry is exact since the low addition wraps at most once. -/
theorem bitlenAddIsExact : Obligations.BitlenAddIsExact := fun lo hi len =>
  ⟨bitlenAdd_value lo hi len, bitlenAdd_low_lt_iff lo hi len, fun h => by
    rw [bitlenAdd_of_low_zero lo hi h]
    exact ⟨rfl, rfl⟩⟩

/-- Settles O27: `2^29` bytes are `2^32` bits, so nothing is added to the low half. -/
theorem counterCarryAtTwoPow29 : Obligations.CounterCarryAtTwoPow29 := fun lo hi =>
  bitlenAdd_of_low_zero lo hi (by decide)

/-- Settles O29: the status is the code of the check that fails, and the fault follows the payload. -/
theorem absorbEntryChecks : Obligations.AbsorbEntryChecks := by
  intro s len hlen
  refine ⟨fun hph => ?_, fun hlive hge => ?_⟩
  · have hst := expectedStatus_absorb_of_not_live (p := Config.params) len hph
    have hexec := exec_of_status_fault (i := .absorb len) hlen (by rw [hst]; decide)
    rwa [hst] at hexec
  · have hst := expectedStatus_absorb_of_live (p := Config.params) len hlive
    rw [if_pos hge] at hst
    have hexec := exec_of_status_fault (i := .absorb len) hlen (by rw [hst]; decide)
    rwa [hst] at hexec

/-- Settles O30: the status is OK, and the effect on an empty payload is none. -/
theorem absorbZeroLengthIsNoOp : Obligations.AbsorbZeroLengthIsNoOp := fun _ hlive hi =>
  exec_of_status_ok (i := .absorb 0) (Nat.zero_le _) (expectedStatus_absorb_ok 0 hlive hi)

/-- Settles O31: `ABSORB` completes as `AbsorbCompletes` says, and its dispatches carry the whole blocks. -/
theorem absorbPostconditions : Obligations.AbsorbPostconditions := by
  intro s len hs hi hz hlive _ hlen B t' stream
  obtain ⟨t, hexec, h⟩ := exec_absorb_completes hs hi hlive hlen
  have hstream : stream.length = t' := stream_length hlen
  have hdata : s.pendingLen.toNat + (s.din.take len.toNat).length = t' := by rw [List.length_take_of_le hlen]
  have hpl := h.pendingLen
  have htail := h.tail
  have hstate := h.state
  rw [hdata] at hpl htail hstate
  have hzero : InvZero Config.params t := h.beyond hz
  refine ⟨t, absorbEvents Config.params (tailBytes s) (s.din.take len.toNat), hexec, hpl, htail, fun a ha => ?_,
    h.trace, ?_, hstate, h.bitlen, h.invLen Config.params_lawful, hzero, h.phase.trans hlive, h.faultCode, h.cmd, h.din,
    h.rsp, h.dout⟩
  · by_cases hB : a < B
    · exact hzero a (hpl ▸ ha) hB
    · exact Memory.read_outside h.shape.pendingWithin (Nat.not_lt.1 hB)
  · rw [absorbEvents_blockBytes (tailBytes_length_lt hi), wholeBlocks, hstream]

/-- Settles O32: the events are those of the branch taken, and together they carry `(n + len) / B` blocks. -/
theorem absorbDispatches : Obligations.AbsorbDispatches := by
  intro s len hs hi hlive hlen B n data k
  obtain ⟨t, hexec, h⟩ := exec_absorb_completes hs hi hlive hlen
  have hT : (tailBytes s).length = n := tailBytes_length s
  have hd : data.length = len.toNat := List.length_take_of_le hlen
  refine ⟨t, absorbEvents Config.params (tailBytes s) data, hexec, h.trace, ?_, fun hn => ?_, fun hn hlt => ?_,
    fun hn hge => ?_⟩
  · rw [absorbEvents_blockCount (tailBytes_length_lt hi), stream_length hlen]
  · rw [List.length_eq_zero_iff.1 (hT.trans hn), absorbEvents_of_empty, bulkEvents, hd]
  · exact absorbEvents_of_fill (tailBytes_ne_nil hn) (by rw [hT, hd]; exact hlt)
  · rw [absorbEvents_of_complete (tailBytes_ne_nil hn) (by rw [hT, hd]; exact hge), bulkEvents, List.length_drop, hT,
      hd]

/-- Settles O33: a stream below a block has no whole block, and the data stand behind the tail. -/
theorem absorbFillOnlyFrame : Obligations.AbsorbFillOnlyFrame := by
  intro s len hs hlive hn hlt hlen n
  have hi : InvLen Config.params s := Nat.lt_of_le_of_lt (Nat.le_add_right _ _) hlt
  obtain ⟨t, hexec, h⟩ := exec_absorb_completes hs hi hlive hlen
  have hd : (s.din.take len.toNat).length = len.toNat := List.length_take_of_le hlen
  have hread := h.filled hn hlt
  refine ⟨t, hexec, ?_, ?_, ?_, fun a h1 h2 => (hread a).trans (if_pos ⟨h1, h2⟩),
    fun a ha => (hread a).trans (if_neg (by omega))⟩
  · rw [h.pendingLen, hd, Nat.mod_eq_of_lt hlt]
  · rw [h.state, hd, Nat.div_eq_of_lt hlt]
    rfl
  · rw [h.trace, absorbEvents_of_fill (tailBytes_ne_nil hn) (by rw [tailBytes_length, hd]; exact hlt), List.append_nil]

/-- Settles O34: the run and the single `ABSORB` stream the same bytes, which determine the context; `FINALIZE` reads
nothing else. -/
theorem streamingEquivalence : Obligations.StreamingEquivalence := by
  intro s lens total hs hi hz hlive hsum hlen
  have hready : ReadyToAbsorb Config.params s := ⟨hs, hi, hz, hlive⟩
  obtain ⟨t, hrun, ht⟩ := runAbsorbs_streamed hready (hsum ▸ hlen)
  obtain ⟨u, hexec, hdone⟩ := exec_absorb_completes hs hi hlive hlen
  have hu := hdone.streamed Config.params_lawful hready hlen
  rw [hsum] at ht
  have hctx : SameContext u t := ht.sameContext hu
  have hfin := paddedState_congr Config.params hctx
  refine ⟨t, u, _, _, hrun, hexec, hctx, ht.ready.live.trans hu.ready.live.symm, ht.faultCode.trans hu.faultCode.symm,
    List.append_cancel_left (ht.din.symm.trans hu.din), ?_, ht.blocks.trans hu.blocks.symm,
    exec_finalize_completes ht.ready.shape ht.ready.invLen ht.ready.live,
    exec_finalize_completes hu.ready.shape hu.ready.invLen hu.ready.live, ⟨hfin, rfl, rfl, rfl, rfl⟩,
    Config.params.serialize (paddedState Config.params u), ?_, congrArg (· ++ _) hu.dout⟩
  · rw [hsum, ht.bitlen, List.length_take_of_le hlen]
  · rw [← hfin]
    exact congrArg (· ++ _) ht.dout

end Sys2Proof.Machine

/-! The statements about `TRANSFORM` (spec 42_transform): raw block injection. `exec_transform_live` and
`exec_transform_not_live` say what it does in each phase; two in a row are one run of `F` because a run goes block by
block (46_plugin R222). -/

namespace Sys2Proof.Machine

section
variable {s : State}

theorem expectedStatus_transform_of_live {p : Params} (h : s.phase = .live) :
    expectedStatus p .transform s = 0 := by
  simp [expectedStatus, permitted, h]

theorem expectedStatus_transform_of_not_live {p : Params} (h : s.phase ≠ .live) :
    expectedStatus p .transform s = 2 := by
  simp [expectedStatus, permitted, h]

/-- The next state of a `TRANSFORM` that completes (42_transform R141, R142). -/
theorem exec_transform_live (hlen : Config.params.blockSize ≤ s.din.length) (hlive : s.phase = .live) :
    let B := Config.params.blockSize
    let block := s.din.take B
    exec .transform s = .next
      { s with
        state := Config.params.compress s.state block, trace := s.trace ++ [.compress .input 1 block],
        din := s.din.drop B, rsp := s.rsp ++ [0] } := by
  intro B block
  have hone : compressN Config.params s.state block 1 = Config.params.compress s.state block :=
    compressN_one _ _ _ (List.length_take_of_le hlen)
  rw [exec_of_status_ok (i := .transform) hlen (expectedStatus_transform_of_live hlive), ← hone]
  rfl

/-- Outside `LIVE` a `TRANSFORM` raises `ProtocolViolation`, its payload taken (42_transform R143). -/
theorem exec_transform_not_live (hlen : Config.params.blockSize ≤ s.din.length) (hph : s.phase ≠ .live) :
    exec .transform s = .next (faulted 2 (afterPayload Config.params.blockSize s)) := by
  have hst := expectedStatus_transform_of_not_live (p := Config.params) hph
  have hexec := exec_of_status_fault (i := .transform) hlen (by rw [hst]; decide)
  rwa [hst] at hexec

end

/-- A run over the first two blocks of a stream is `F` of one and then of the other (46_plugin R222). -/
theorem compressN_take_two (p : Params) (σ : List Word) {xs : List Byte} (h : 2 * p.blockSize ≤ xs.length) :
    compressN p σ (xs.take (2 * p.blockSize)) 2 =
      p.compress (p.compress σ (xs.take p.blockSize)) ((xs.drop p.blockSize).take p.blockSize) := by
  have hfirst : (xs.take p.blockSize).length = p.blockSize := List.length_take_of_le (by omega)
  have hsecond : ((xs.drop p.blockSize).take p.blockSize).length = p.blockSize :=
    List.length_take_of_le (by rw [List.length_drop]; omega)
  rw [Nat.two_mul, List.take_add, compressN_block hfirst, compressN_one _ _ _ hsecond]

/-- Settles O36: in `LIVE` the status is OK whatever `pending_len` holds, in every other phase it is
`ProtocolViolation`. -/
theorem transformCompressesOneBlock : Obligations.TransformCompressesOneBlock := fun _ hlen =>
  ⟨exec_transform_live hlen, exec_transform_not_live hlen⟩

/-- Settles O38: the first `TRANSFORM` leaves the core in `LIVE` with the second block in front on `DIN`. -/
theorem twoTransformsAreOneRun : Obligations.TwoTransformsAreOneRun := by
  intro s hlive hlen B
  have hfirst : B ≤ s.din.length := by omega
  have hsecond : B ≤ (s.din.drop B).length := by rw [List.length_drop]; omega
  exact ⟨_, _, exec_transform_live hfirst hlive, exec_transform_live hsecond hlive,
    (compressN_take_two Config.params s.state hlen).symm, List.append_assoc _ _ _⟩

end Sys2Proof.Machine

/-! The statements about `FINALIZE` (spec 43_finalize): its entry checks, the length field, what it dispatches and
leaves, and a whole message from `INIT` to `FINALIZE`. A message is padded as its remainder is, since whole blocks in
front of a stream do not change its padding (`padZeros_mod`); so the blocks absorbed and then the padding blocks are the
padded message (`wholeBlocks_append_paddingBlocks`). -/

namespace Sys2Proof.Machine

/-! ### The entry checks -/

section
variable {p : Params} {s : State}

theorem expectedStatus_finalize_of_not_live (h : s.phase ≠ .live) : expectedStatus p .finalize s = 2 := by
  simp [expectedStatus, permitted, h]

theorem expectedStatus_finalize_of_live (h : s.phase = .live) :
    expectedStatus p .finalize s = if p.blockSize ≤ s.pendingLen.toNat then 4 else 0 := by
  simp [expectedStatus, permitted, h]

end

/-- A `FINALIZE` whose status is not OK takes the fault of its status; it has no payload. -/
theorem exec_finalize_of_status_fault {s : State} {c : Word} (hst : expectedStatus Config.params .finalize s = c)
    (hc : c ≠ 0) : exec .finalize s = .next (faulted c s) := by
  subst hst
  exact exec_of_status_fault (i := .finalize) (Nat.zero_le _) hc

/-! ### The length field -/

/-- The bytes of the length field from the first to the last, for `LITTLE` (43_finalize R156). -/
theorem lengthField_little_getD (L : Nat) {i : Nat} (hi : i < 8) :
    (lengthField .little L).getD i 0 = BitVec.ofNat 8 (L / 2 ^ (8 * i)) := by
  simp [lengthField, List.getD_eq_getElem?_getD, hi]

/-- The bytes of the length field from the first to the last, for `BIG` (43_finalize R156). -/
theorem lengthField_big_getD (L : Nat) {i : Nat} (hi : i < 8) :
    (lengthField .big L).getD i 0 = BitVec.ofNat 8 (L / 2 ^ (8 * (7 - i))) := by
  simp [lengthField, List.getD_eq_getElem?_getD, hi]

/-- Reading any byte after step 4: a byte of the length field in the last eight, else the byte as before (R155). -/
theorem read_writeLength {p : Params} {s : State} (hB : 8 ≤ p.blockSize) (hwf : Memory.wf s.pending) (a : Nat) :
    Memory.read (writeLength p s).pending a =
      if p.blockSize - 8 ≤ a ∧ a < p.blockSize then (lengthField p.order (bitlen s)).getD (a - (p.blockSize - 8)) 0
      else Memory.read s.pending a := by
  have hread := Memory.read_writeBytes hwf (p.blockSize - 8) (lengthField p.order (bitlen s)) a
  rw [lengthField_length, Nat.sub_add_cancel hB] at hread
  rw [writeLength_eq hB]
  exact hread

/-! ### The padding of a message -/

section
variable {B : Nat}

/-- Whole blocks in front of a message do not change its padding. -/
theorem padZeros_mod (B n : Nat) : padZeros B (n % B) = padZeros B n := by
  rw [padZeros, padZeros, Nat.mod_add_mod]

/-- The marker, the zeros and the length field complete a block (43_finalize R164). -/
theorem add_padZeros_mod (hB : 0 < B) (n : Nat) : (n + 9 + padZeros B n) % B = 0 := by
  have hlt := Nat.mod_lt (n + 9) hB
  rw [Nat.add_mod, padZeros, Nat.mod_mod, Nat.add_mod_mod, Nat.add_sub_cancel' (Nat.le_of_lt hlt), Nat.mod_self]

/-- Below `B` only one number of zeros completes a block. -/
theorem padZeros_unique {n z : Nat} (hz : z < B) (h : (n + 9 + z) % B = 0) : padZeros B n = z := by
  have hB : 0 < B := Nat.zero_lt_of_lt hz
  have hmod : n + 9 + padZeros B n ≡ n + 9 + z [MOD B] := (add_padZeros_mod hB n).trans h.symm
  exact (Nat.ModEq.add_left_cancel' _ hmod).eq_of_lt_of_lt (Nat.mod_lt _ hB) hz

/-- No smaller number of zeros does (43_finalize R164). -/
theorem padZeros_least (hB : 0 < B) {n z : Nat} (hz : (n + 9 + z) % B = 0) : padZeros B n ≤ z := by
  rw [← Nat.add_mod_mod] at hz
  rw [padZeros_unique (Nat.mod_lt z hB) hz]
  exact Nat.mod_le z B

/-- A tail that leaves room for the marker and the length field is padded to one block (43_finalize R163). -/
theorem padZeros_of_le {n : Nat} (h : n + 9 ≤ B) : padZeros B n = B - 9 - n :=
  padZeros_unique (by omega) (by rw [show n + 9 + (B - 9 - n) = B by omega, Nat.mod_self])

/-- A tail that leaves no room for them is padded to two blocks (43_finalize R163). -/
theorem padZeros_of_lt {n : Nat} (hB : 8 ≤ B) (hn : n < B) (h : B < n + 9) :
    padZeros B n = (B - 1 - n) + (B - 8) :=
  padZeros_unique (by omega)
    (by rw [show n + 9 + (B - 1 - n + (B - 8)) = B + B by omega, Nat.add_mod_left, Nat.mod_self])

theorem remainder_length (xs : List Byte) : (remainder B xs).length = xs.length % B := by
  have h := Nat.div_add_mod xs.length B
  rw [remainder, List.length_drop]
  omega

theorem remainder_length_lt (hB : 0 < B) (xs : List Byte) : (remainder B xs).length < B := by
  rw [remainder_length]
  exact Nat.mod_lt _ hB

end

section
variable {p : Params}

theorem paddedMessage_length (M : List Byte) :
    (paddedMessage p M).length = M.length + 9 + padZeros p.blockSize M.length := by
  simp only [paddedMessage, List.length_append, List.length_singleton, zeros_length, lengthField_length]
  omega

/-- The padding blocks in a row are the tail, the marker, the zeros of the tail's padding, the length field
(43_finalize R164). -/
theorem paddingBlocks_flatten (hB : 8 ≤ p.blockSize) {T : List Byte} (hT : T.length < p.blockSize) (L : Nat) :
    (paddingBlocks p T L).flatten =
      T ++ [0x80] ++ zeros (padZeros p.blockSize T.length) ++ lengthField p.order L := by
  rw [paddingBlocks]
  split
  · rename_i h
    rw [padZeros_of_le h, List.flatten_singleton]
  · rename_i h
    rw [padZeros_of_lt hB hT (Nat.not_le.1 h), zeros_add]
    simp

/-- The padding blocks in a row are as many blocks. -/
theorem paddingBlocks_flatten_length (hB : 8 ≤ p.blockSize) {T : List Byte} (hT : T.length < p.blockSize) (L : Nat) :
    (paddingBlocks p T L).flatten.length = p.blockSize * (paddingBlocks p T L).length := by
  obtain ⟨-, hblock⟩ := paddingBlocks_length hB hT L
  rw [List.length_flatten, List.map_congr_left hblock, List.map_const', List.sum_replicate, smul_eq_mul, Nat.mul_comm]

/-- The whole blocks of a message, then the padding blocks of its remainder, are the padded message. -/
theorem wholeBlocks_append_paddingBlocks (hB : 8 ≤ p.blockSize) (M : List Byte) :
    wholeBlocks p.blockSize M ++ (paddingBlocks p (remainder p.blockSize M) (8 * M.length % 2 ^ 64)).flatten =
      paddedMessage p M := by
  rw [paddingBlocks_flatten hB (remainder_length_lt (by omega) M), remainder_length, padZeros_mod, paddedMessage]
  simp only [← List.append_assoc, wholeBlocks_append_remainder]

/-- Going on from the whole blocks of a message with the padding blocks of its remainder is one run over the padded
message (46_plugin R222). -/
theorem compressN_paddedMessage (hB : 8 ≤ p.blockSize) (σ : List Word) (M : List Byte) :
    let blocks := paddingBlocks p (remainder p.blockSize M) (8 * M.length % 2 ^ 64)
    compressN p (compressWhole p σ M) blocks.flatten blocks.length =
      compressN p σ (paddedMessage p M) ((paddedMessage p M).length / p.blockSize) := by
  intro blocks
  have hpos : 0 < p.blockSize := by omega
  have hcount : (paddedMessage p M).length / p.blockSize = M.length / p.blockSize + blocks.length := by
    rw [← wholeBlocks_append_paddingBlocks hB, blockCount_blocks_append hpos (wholeBlocks_length M),
      paddingBlocks_flatten_length hB (remainder_length_lt hpos M), Nat.mul_div_cancel_left _ hpos]
  rw [hcount, ← wholeBlocks_append_paddingBlocks hB, compressN_append p _ σ _ (wholeBlocks_length M)]
  rfl

end

/-! ### `INIT`, then a stream, then `FINALIZE` -/

theorem bitlen_of_halves_zero {s : State} (hlo : s.bitlenLo = 0) (hhi : s.bitlenHi = 0) : bitlen s = 0 := by
  rw [bitlen, hlo, hhi]
  rfl

/-- Outside `FAULT` an `INIT` completes: the core is ready to absorb from `IV`, with no tail and a counter of zero
(45_context R201). -/
theorem exec_init_ready {s : State} (h : Shape Config.params s) (hph : s.phase ≠ .fault) :
    ∃ a, exec .init s = .next a ∧ ReadyToAbsorb Config.params a ∧ a.state = Config.params.iv ∧ tailBytes a = [] ∧
      bitlen a = 0 ∧ a.din = s.din ∧ a.dout = s.dout := by
  have hp := Config.params_lawful
  obtain ⟨hlen, hzero⟩ := init_establishes hp h []
  exact ⟨_, exec_of_status_ok (i := .init) (Nat.zero_le _) (expectedStatus_init.2 hph),
    ⟨(h.init hp hph []).respond [0], hlen, hzero, rfl⟩, rfl, rfl, bitlen_of_halves_zero rfl rfl, rfl, rfl⟩

/-- With no tail and a counter of zero at its start, a stream is padded as the message it is (43_finalize R164). -/
theorem Streamed.paddedState_eq {p : Params} {s t : State} {M : List Byte} (hp : p.Lawful) (h : Streamed p s M t)
    (htail : tailBytes s = []) (hbit : Machine.bitlen s = 0) :
    paddedState p t = compressN p s.state (paddedMessage p M) ((paddedMessage p M).length / p.blockSize) := by
  rw [paddedState, h.state, h.tail, h.bitlen, htail, hbit, List.nil_append, Nat.zero_add]
  exact compressN_paddedMessage hp.blockSize_ge s.state M

/-! ### The statements -/

/-- Settles O40: the steps of `FINALIZE` dispatch the padding blocks, one or two of `B` bytes. -/
theorem finalizePadsAndResets : Obligations.FinalizePadsAndResets := by
  intro s h hi hlive p blocks final
  obtain ⟨hcount, hblock⟩ :=
    paddingBlocks_length Config.params_lawful.blockSize_ge (tailBytes_length_lt hi) (bitlen s)
  rw [tailBytes_length] at hcount
  exact ⟨hcount, hblock, exec_finalize_completes h hi hlive⟩

/-- Settles O41: step 4 writes the length field and nothing else; its bytes are those of its order. -/
theorem lengthFieldByteByByte : Obligations.LengthFieldByteByByte := by
  intro p s hB hwf L t
  refine ⟨fun i hi => ?_, fun a ha => (read_writeLength hB hwf a).trans (if_neg (by omega))⟩
  rw [read_writeLength hB hwf, if_pos (by omega), Nat.add_sub_cancel_left]
  cases p.order with
  | big => exact lengthField_big_getD L hi
  | little => exact lengthField_little_getD L hi

/-- Settles O42: `INIT` readies the core at `IV`, `ABSORB` streams the message, and `FINALIZE` goes on with the padding
blocks of its remainder. -/
theorem messageIsPaddedAndCompressed : Obligations.MessageIsPaddedAndCompressed := by
  intro s M hs hph hM ⟨rest, hrest⟩ p padded final
  have hp := Config.params_lawful
  have hpos := blockSize_pos hp
  have hlen : (BitVec.ofNat 64 M.length).toNat = M.length := by rw [BitVec.toNat_ofNat, Nat.mod_eq_of_lt hM]
  obtain ⟨a, hinit, ready, hiv, htail, hbit, hdin, hdout⟩ := exec_init_ready hs hph
  have hle : (BitVec.ofNat 64 M.length).toNat ≤ a.din.length := by
    rw [hlen, hdin, ← hrest, List.length_append]
    exact Nat.le_add_right _ _
  obtain ⟨b, habsorb, hdone⟩ := exec_absorb_completes ready.shape ready.invLen ready.live hle
  have hstream := hdone.streamed hp ready hle
  rw [hlen, hdin, ← hrest, List.take_left] at hstream
  have hfinal : paddedState p b = final := by rw [hstream.paddedState_eq hp htail hbit, hiv]
  refine ⟨by rw [paddedMessage_length, add_padZeros_mod hpos], fun z hz => padZeros_least hpos ?_,
    a, b, _, hinit, habsorb, exec_finalize_completes hstream.ready.shape hstream.ready.invLen
      hstream.ready.live, hfinal, ?_⟩
  · rwa [show M.length + 9 + z = M.length + 1 + z + 8 by omega]
  · rw [← hfinal, ← hdout, ← hstream.dout]

/-- Settles O39: the status is the code of the check that fails. -/
theorem finalizeEntryChecks : Obligations.FinalizeEntryChecks := fun _ =>
  ⟨fun hph => exec_finalize_of_status_fault (expectedStatus_finalize_of_not_live hph) (by decide),
    fun hlive hge => exec_finalize_of_status_fault
      ((expectedStatus_finalize_of_live hlive).trans (if_pos hge)) (by decide)⟩

end Sys2Proof.Machine

/-! The statements about the byte-order codec (spec 44_codec): its two primitives and the two commands that expose them.
The primitives are shown inverse for `BIG` in numbers; for `LITTLE` both are those of `BIG` on the bytes reversed
(`bytesFromWord_big_eq_reverse`, `wordFromBytes_little_eq_big`). -/

namespace Sys2Proof.Machine

/-! ### The primitives -/

/-- The big-endian bytes are the little-endian ones reversed (44_codec R183). -/
theorem bytesFromWord_big_eq_reverse (w : Word) : bytesFromWord .big w = (bytesFromWord .little w).reverse := rfl

/-- The word four bytes make in `LITTLE` is the one they make reversed in `BIG` (44_codec R181). -/
theorem wordFromBytes_little_eq_big (b0 b1 b2 b3 : Byte) :
    wordFromBytes .little [b0, b1, b2, b3] 0 = wordFromBytes .big [b3, b2, b1, b0] 0 := by
  refine Prod.ext (BitVec.eq_of_toNat_eq ?_) rfl
  rw [wordFromBytes_little_toNat, wordFromBytes_big_toNat]
  omega

/-- The bytes of a word in numbers, in `BIG` (44_codec R182). -/
theorem bytesFromWord_big_eq (w : Word) :
    bytesFromWord .big w = [3, 2, 1, 0].map fun i => BitVec.ofNat 8 (w.toNat / 2 ^ (8 * i)) := by
  simp [bytesFromWord, extractByte_eq]

/-- The bytes of a word in numbers, in `LITTLE` (44_codec R182). -/
theorem bytesFromWord_little_eq (w : Word) :
    bytesFromWord .little w = [0, 1, 2, 3].map fun i => BitVec.ofNat 8 (w.toNat / 2 ^ (8 * i)) := by
  simp [bytesFromWord, extractByte_eq]

theorem wordFromBytes_bytesFromWord_big (w : Word) : wordFromBytes .big (bytesFromWord .big w) 0 = (w, 4) := by
  refine Prod.ext (BitVec.eq_of_toNat_eq ?_) rfl
  have hw := w.isLt
  rw [bytesFromWord, wordFromBytes_big_toNat]
  simp only [extractByte_toNat]
  omega

/-- Composing the bytes a word is cut into gives the word (44_codec R183). -/
theorem wordFromBytes_bytesFromWord (o : ByteOrder) (w : Word) : wordFromBytes o (bytesFromWord o w) 0 = (w, 4) := by
  cases o with
  | big => exact wordFromBytes_bytesFromWord_big w
  | little => exact (wordFromBytes_little_eq_big _ _ _ _).trans (wordFromBytes_bytesFromWord_big w)

theorem bytesFromWord_wordFromBytes_big (b0 b1 b2 b3 : Byte) :
    bytesFromWord .big (wordFromBytes .big [b0, b1, b2, b3] 0).1 = [b0, b1, b2, b3] := by
  have hw := wordFromBytes_big_toNat b0 b1 b2 b3 []
  have h0 := b0.isLt
  have h1 := b1.isLt
  have h2 := b2.isLt
  have h3 := b3.isLt
  simp only [bytesFromWord, List.cons.injEq, and_true, ← BitVec.toNat_inj, extractByte_toNat, hw]
  omega

/-- Cutting the word four bytes make gives the four bytes (44_codec R183). -/
theorem bytesFromWord_wordFromBytes (o : ByteOrder) {s : List Byte} (h : s.length = 4) :
    bytesFromWord o (wordFromBytes o s 0).1 = s := by
  obtain ⟨b0, b1, b2, b3, rfl⟩ := List.length_eq_four.1 h
  cases o with
  | big => exact bytesFromWord_wordFromBytes_big b0 b1 b2 b3
  | little =>
    rw [wordFromBytes_little_eq_big, ← List.reverse_inj, ← bytesFromWord_big_eq_reverse]
    exact bytesFromWord_wordFromBytes_big b3 b2 b1 b0

/-! ### The commands -/

section
variable {s : State} {i : Instr} (hi : i = .b2w ∨ ∃ w, i = .w2b w)
include hi

theorem expectedStatus_codec (p : Params) : expectedStatus p i s = if s.phase = .fault then 2 else 0 := by
  obtain rfl | ⟨w, rfl⟩ := hi <;> simp [expectedStatus, permitted]

/-- In `FAULT` a codec command raises `ProtocolViolation`, its payload taken (44_codec R189, R190). -/
theorem exec_codec_in_fault (hlen : i.payloadLen Config.params.blockSize ≤ s.din.length) (hph : s.phase = .fault) :
    exec i s = .next (faulted 2 (afterPayload (i.payloadLen Config.params.blockSize) s)) := by
  have hst : expectedStatus Config.params i s = 2 := (expectedStatus_codec hi _).trans (if_pos hph)
  have hexec := exec_of_status_fault hlen (by rw [hst]; decide)
  rwa [hst] at hexec

end

section
variable {s : State}

/-- The next state of a `B2W` that completes (44_codec R189). -/
theorem exec_b2w_completes (hlen : 4 ≤ s.din.length) (hph : s.phase ≠ .fault) :
    exec .b2w s = .next { s with
      din := s.din.drop 4, rsp := s.rsp ++ [0, (wordFromBytes Config.params.order (s.din.take 4) 0).1] } :=
  exec_of_status_ok (i := .b2w) hlen ((expectedStatus_codec (.inl rfl) _).trans (if_neg hph))

/-- The next state of a `W2B` that completes (44_codec R190). -/
theorem exec_w2b_completes (w : Word) (hph : s.phase ≠ .fault) :
    exec (.w2b w) s = .next { s with
      dout := s.dout ++ bytesFromWord Config.params.order w, rsp := s.rsp ++ [0] } :=
  exec_of_status_ok (i := .w2b w) (Nat.zero_le _) ((expectedStatus_codec (.inr ⟨w, rfl⟩) _).trans (if_neg hph))

end

/-! ### The statements -/

/-- Settles O45: `BIG` in numbers, `LITTLE` by reversal. -/
theorem codecRoundTrip : Obligations.CodecRoundTrip :=
  ⟨wordFromBytes_bytesFromWord, fun o _ h => bytesFromWord_wordFromBytes o h, bytesFromWord_big_eq_reverse⟩

/-- Settles O43: the word is the one of `WordFromBytes`, whose value each order gives. -/
theorem b2wComposesWord : Obligations.B2wComposesWord := by
  intro s b0 b1 b2 b3 rest hdin
  have hlen : 4 ≤ s.din.length := by simp [hdin]
  refine ⟨fun hph => ⟨(wordFromBytes Config.params.order [b0, b1, b2, b3] 0).1, ?_, ?_⟩, fun hph => ?_⟩
  · have hexec := exec_b2w_completes hlen hph
    rwa [hdin] at hexec
  · cases Config.params.order with
    | big => exact wordFromBytes_big_toNat b0 b1 b2 b3 []
    | little => exact wordFromBytes_little_toNat b0 b1 b2 b3 []
  · have hexec := exec_codec_in_fault (.inl rfl) hlen hph
    rwa [afterPayload, hdin] at hexec

/-- Settles O44: the bytes are those of `BytesFromWord`, which each order gives in numbers. -/
theorem w2bEmitsBytes : Obligations.W2bEmitsBytes := by
  intro s w byte
  refine ⟨fun hph => ?_, exec_codec_in_fault (.inr ⟨w, rfl⟩) (Nat.zero_le _)⟩
  rw [exec_w2b_completes w hph]
  cases Config.params.order with
  | big => rw [bytesFromWord_big_eq]; rfl
  | little => rw [bytesFromWord_little_eq]; rfl

/-- Settles O46: each primitive on the example; the composed words are the round trip of the bytes. -/
theorem codecExample : Obligations.CodecExample :=
  ⟨rfl, wordFromBytes_bytesFromWord .big 0x01020304, rfl, wordFromBytes_bytesFromWord .little 0x01020304⟩

end Sys2Proof.Machine

/-! The statements about the context (spec 45_context): the way into `LIVE`, `INIT`, the registers that `CTXRD` reads
and `CTXWR` writes, and the buffer bytes beyond `pending_len`. An index names at most one register and a register one
index (`ctxRegAt_some`, `ctxRegAt_of_index`), so `CTXRD` and `CTXWR` are told register by register; the buffer reaches
`ABSORB` and `FINALIZE` through its tail alone (`AbsorbCompletes.eq_but_pending`, `exec_finalize_completes`). -/

namespace Sys2Proof.Machine

/-- A command without payload whose status is not OK takes the fault of its status, and nothing else changes. -/
theorem exec_faults_without_payload {i : Instr} {s : State} {c : Word}
    (hpayload : i.payloadLen Config.params.blockSize = 0) (hst : expectedStatus Config.params i s = c) (hc : c ≠ 0) :
    exec i s = .next (faulted c s) := by
  subst hst
  have hexec := exec_of_status_fault (i := i) (hpayload ▸ Nat.zero_le _) hc
  rwa [hpayload, afterPayload_zero] at hexec

/-! ### The way into `LIVE`, and `INIT` -/

theorem eq_init_of_phaseAfter_live {i : Instr} {ph : Phase} (hafter : phaseAfter i ph = .live) (hph : ph ≠ .live) :
    i = .init := by
  cases i with
  | init => rfl
  | finalize => exact Phase.noConfusion hafter
  | _ => exact absurd hafter hph

/-- Zeroing the buffer changes the buffer alone (45_context R201). -/
theorem zeroPend_eq {p : Params} {s : State} (h : Shape p s) : zeroPend p s = { s with pending := [] } := by
  rw [zeroPend, writePend, Memory.writeBytes_zeros h.pendingWf h.pendingWithin]

/-! ### The register an index names -/

/-- A register in its window is found at its index (45_context R204). -/
theorem ctxRegAt_of_index {p : Params} (hp : p.Lawful) {k : Nat} {r : CtxReg} (hk : k = r.index)
    (hw : r.InWindow p) : ctxRegAt p k = some r := by
  subst hk
  cases r with
  | stateWord i => exact ctxRegAt_state hw
  | pendingByte j => exact ctxRegAt_pending hp.stateWords_le hw
  | _ => rfl

theorem mappedIndex_eq_false_iff {p : Params} {k : Nat} :
    mappedIndex p k = false ↔
      0x0007 < k ∧ (k < 0x0100 ∨ 0x0100 + p.stateWords ≤ k) ∧ (k < 0x0200 ∨ 0x0200 + p.blockSize ≤ k) := by
  simp only [mappedIndex, Bool.or_eq_false_iff, Bool.and_eq_false_iff, decide_eq_false_iff_not]
  omega

/-- An unmapped index is not read/write (45_context R205). -/
theorem writableIndex_of_unmapped {p : Params} {k : Nat} (h : mappedIndex p k = false) : writableIndex p k = false :=
  writableIndex_none ((ctxRegAt_none k).2 h)

/-- Indices 3 to 7 are read-only (45_context R204). -/
theorem writableIndex_readOnly {p : Params} {k : Nat} (h3 : 0x0003 ≤ k) (h7 : k ≤ 0x0007) :
    writableIndex p k = false := by
  simp only [writableIndex, Bool.or_eq_false_iff, Bool.and_eq_false_iff, decide_eq_false_iff_not]
  omega

/-- Of a mapped index the register is found, in its window (45_context R204). -/
theorem register_of_mapped {p : Params} {k : Nat} (h : mappedIndex p k = true) :
    ∃ r : CtxReg, k = r.index ∧ r.InWindow p := by
  cases hr : ctxRegAt p k with
  | some r => exact ⟨r, ctxRegAt_some hr⟩
  | none => exact absurd h (by simp [(ctxRegAt_none k).1 hr])

/-- Of a read/write index the register is found, in its window (45_context R204). -/
theorem register_of_writable {p : Params} {k : Nat} (h : writableIndex p k = true) :
    ∃ r : CtxReg, k = r.index ∧ r.InWindow p ∧ r.writable = true := by
  obtain ⟨r, hr, hrw⟩ := (ctxRegAt_writable k).1 h
  obtain ⟨hk, hw⟩ := ctxRegAt_some hr
  exact ⟨r, hk, hw, hrw⟩

/-! ### Reading a register -/

/-- A byte reads as a word with 24 zero bits above it (45_context R204). -/
theorem byte_setWidth_word (b : Byte) : b.setWidth 32 = (0 : BitVec 24) ++ b :=
  BitVec.setWidth_eq_append (by decide)

/-- No register is a port. -/
theorem readCtx_respond (p : Params) (ws : List Word) (s : State) (r : CtxReg) :
    readCtx p (respond ws s) r = readCtx p s r := by
  cases r <;> rfl

/-- What a written register reads as: the value, or its low byte (45_context R203). -/
theorem readCtx_writeCtx_same {p : Params} {s : State} (hp : p.Lawful) (h : Shape p s) {r : CtxReg}
    (hw : r.InWindow p) (hrw : r.writable = true) (v : Word) :
    readCtx p (writeCtx r v s) r = if r.index < 0x0200 then v else (0 : BitVec 24) ++ v.extractLsb' 0 8 := by
  cases r with
  | stateWord i =>
    have hi : i < p.stateWords := hw
    have hwords := hp.stateWords_le
    have hlow : (CtxReg.stateWord i).index < 0x0200 := show 0x0100 + i < 0x0200 by omega
    rw [if_pos hlow]
    show (s.state.set i v).getD i 0 = v
    simp [h.stateLength, hi]
  | pendingByte j =>
    have hhigh : ¬ (CtxReg.pendingByte j).index < 0x0200 := Nat.not_lt.2 (Nat.le_add_right _ _)
    rw [if_neg hhigh]
    show (Memory.read (Memory.write s.pending j (v.setWidth 8)) j).setWidth 32 = _
    rw [Memory.read_write h.pendingWf, if_pos rfl, byte_setWidth_word, BitVec.setWidth_eq_extractLsb' (by decide)]
  | bitlenLo => rfl
  | bitlenHi => rfl
  | pendingLen => rfl
  | _ => exact Bool.noConfusion hrw

/-- Writing a register leaves what every other one reads as (45_context R203). -/
theorem readCtx_writeCtx_of_ne {s : State} (p : Params) (hwf : Memory.wf s.pending) {r r' : CtxReg} (hne : r' ≠ r)
    (v : Word) : readCtx p (writeCtx r v s) r' = readCtx p s r' := by
  cases r with
  | bitlenLo =>
    cases r' with
    | bitlenLo => exact absurd rfl hne
    | _ => rfl
  | bitlenHi =>
    cases r' with
    | bitlenHi => exact absurd rfl hne
    | _ => rfl
  | pendingLen =>
    cases r' with
    | pendingLen => exact absurd rfl hne
    | _ => rfl
  | stateWord i =>
    cases r' with
    | stateWord i' =>
      have hi : i ≠ i' := fun h => hne (congrArg CtxReg.stateWord h.symm)
      show (s.state.set i v).getD i' 0 = s.state.getD i' 0
      simp [hi]
    | _ => rfl
  | pendingByte j =>
    cases r' with
    | pendingByte j' =>
      have hj : j' ≠ j := fun h => hne (congrArg CtxReg.pendingByte h)
      show (Memory.read (Memory.write s.pending j (v.setWidth 8)) j').setWidth 32 = _
      rw [Memory.read_write hwf, if_neg hj]
      rfl
    | _ => rfl
  | _ => rfl

/-! ### `CTXRD` and `CTXWR`, register by register -/

section
variable {s : State} {idx : BitVec 16} {r : CtxReg}

/-- `CTXRD` of a register answers its value and changes nothing else (45_context R202). -/
theorem exec_ctxrd_reads (hw : r.InWindow Config.params) (hk : idx.toNat = r.index) :
    exec (.ctxrd idx) s = .next { s with rsp := s.rsp ++ [0, readCtx Config.params s r] } := by
  rw [exec_ctxrd, ctxrdBody, ctxReg, ctxRegAt_of_index Config.params_lawful hk hw]
  rfl

/-- `CTXRD` of an unmapped index raises `IllegalRegister` (45_context R205). -/
theorem exec_ctxrd_unmapped (h : mappedIndex Config.params idx.toNat = false) :
    exec (.ctxrd idx) s = .next (faulted 3 s) :=
  exec_faults_without_payload rfl (by simp [expectedStatus, permitted, h]) (by decide)

/-- In `LIVE`, `CTXWR` of a read/write register writes it (45_context R203). -/
theorem exec_ctxwr_writes (hlive : s.phase = .live) (hw : r.InWindow Config.params) (hrw : r.writable = true)
    (hk : idx.toNat = r.index) (v : Word) :
    exec (.ctxwr idx v) s = .next (respond [0] (writeCtx r v s)) := by
  rw [exec_ctxwr, ctxwrBody, if_neg (not_not_intro hlive), ctxReg, ctxRegAt_of_index Config.params_lawful hk hw]
  exact congrArg _ (if_pos hrw)

/-- Outside `LIVE`, `CTXWR` raises `ProtocolViolation` (45_context R203). -/
theorem exec_ctxwr_not_live (hph : s.phase ≠ .live) (v : Word) : exec (.ctxwr idx v) s = .next (faulted 2 s) :=
  exec_faults_without_payload rfl (by simp [expectedStatus, permitted, hph]) (by decide)

/-- In `LIVE`, `CTXWR` of an index that is not read/write raises `IllegalRegister` (45_context R205). -/
theorem exec_ctxwr_not_writable (hlive : s.phase = .live) (h : writableIndex Config.params idx.toNat = false)
    (v : Word) : exec (.ctxwr idx v) s = .next (faulted 3 s) :=
  exec_faults_without_payload rfl (by simp [expectedStatus, permitted, hlive, h]) (by decide)

end

/-! ### The buffer beyond `pending_len` -/

/-- The tail is what the bytes below `pending_len` read as. -/
theorem tailBytes_congr {s t : State} (hlen : t.pendingLen = s.pendingLen)
    (h : ∀ a, a < s.pendingLen.toNat → Memory.read t.pending a = Memory.read s.pending a) :
    tailBytes t = tailBytes s := by
  rw [tailBytes, hlen]
  exact Memory.readBytes_congr fun a _ ha => h a (by omega)

/-- An `ABSORB` reads the buffer through its tail alone (41_absorb R120, R121): with the same tail in another buffer it
leaves the same state but for the buffer, and the same tail. -/
theorem AbsorbCompletes.eq_but_pending {p : Params} {s : State} {m : Memory} {len : BitVec 64} {t t' : State}
    (h : AbsorbCompletes p s len t) (h' : AbsorbCompletes p { s with pending := m } len t')
    (htail : tailBytes { s with pending := m } = tailBytes s) :
    t' = { t with pending := t'.pending } ∧ tailBytes t' = tailBytes t := by
  obtain ⟨hlo, hhi⟩ := bitlen_halves_eq (h'.bitlen.trans h.bitlen.symm)
  have hstate : t'.state = t.state := by rw [h'.state, h.state, htail]
  have htrace : t'.trace = t.trace := by rw [h'.trace, h.trace, htail]
  refine ⟨State.ext_fields hstate hlo hhi rfl (BitVec.eq_of_toNat_eq (h'.pendingLen.trans h.pendingLen.symm))
    (h'.phase.trans h.phase.symm) (h'.faultCode.trans h.faultCode.symm) (h'.cmd.trans h.cmd.symm)
    (h'.din.trans h.din.symm) (h'.rsp.trans h.rsp.symm) (h'.dout.trans h.dout.symm) htrace, ?_⟩
  rw [h'.tail, h.tail, htail]

/-! ### The statements -/

/-- Settles O35: the two contexts have the same tail, and `ABSORB` and `FINALIZE` read nothing else of the buffer. -/
theorem strayBytesAreNotSeen : Obligations.StrayBytesAreNotSeen := by
  intro s m hs hs' hlive hi hread
  have htail : tailBytes { s with pending := m } = tailBytes s := tailBytes_congr rfl hread
  refine ⟨fun len t hexec => ?_, _, exec_finalize_completes hs hi hlive, ?_⟩
  · obtain ⟨hlen, -⟩ := exec_next hexec
    obtain ⟨u, hu, hdone⟩ := exec_absorb_completes hs hi hlive hlen
    obtain rfl : u = t := Host.Outcome.next.inj (hu.symm.trans hexec)
    obtain ⟨u', hu', hdone'⟩ := exec_absorb_completes hs' hi hlive hlen
    obtain ⟨heq, htails⟩ := hdone.eq_but_pending hdone' htail
    have hpl : u'.pendingLen = u.pendingLen := by rw [heq]
    refine ⟨u'.pending, hu'.trans (congrArg _ heq), fun a ha => Option.some.inj ?_⟩
    rw [← tailBytes_getElem? ha, ← tailBytes_getElem? (hpl ▸ ha), htails]
  · have hfinal : paddedState Config.params { s with pending := m } = paddedState Config.params s := by
      rw [paddedState, htail]
      rfl
    rw [exec_finalize_completes hs' hi hlive, hfinal, htail]
    rfl

/-- Settles O20: a fault leaves the core in `FAULT`, and of the commands that complete only `INIT` leaves it in a `LIVE`
it was not in. -/
theorem initIsTheOnlyWayToLive : Obligations.InitIsTheOnlyWayToLive := by
  intro s t hstep hph hlive
  obtain ⟨i, n, rest, payload, answer, hdec, -, rfl⟩ | ⟨-, c, n, rest, -, rfl⟩ := step_cases hstep
  · obtain ⟨hafter, -⟩ := commandEffect_frame Config.params i payload (afterPayload n (afterWords rest s))
    obtain rfl := eq_init_of_phaseAfter_live (hafter.symm.trans hlive) hph
    exact ⟨rest, hdec⟩
  · exact Phase.noConfusion hlive

/-- Settles O21: `INIT` zeroes the buffer, which leaves no cell, and checks the phase alone. -/
theorem initLoadsInitialContext : Obligations.InitLoadsInitialContext := by
  intro s hs
  refine ⟨fun hph => ?_, fun hph =>
    exec_faults_without_payload rfl (by simp [expectedStatus, permitted, hph]) (by decide)⟩
  rw [exec_init, initBody, if_neg hph, zeroPend_eq hs]
  rfl

/-- Settles O22: every clause is the read of one register. -/
theorem ctxrdAnswersRegister : Obligations.CtxrdAnswersRegister := by
  intro s idx answer k
  have hread : ∀ r : CtxReg, r.InWindow Config.params → k = r.index →
      exec (.ctxrd idx) s = answer (readCtx Config.params s r) := fun _ => exec_ctxrd_reads
  refine ⟨hread .bitlenLo trivial, hread .bitlenHi trivial, hread .pendingLen trivial,
    fun hk => ⟨s.phase.code, hread .phase trivial hk, congrArg Phase.code, congrArg Phase.code, congrArg Phase.code,
      congrArg Phase.code⟩,
    hread .faultCode trivial, hread .cfgBlockSize trivial, hread .cfgOrder trivial, hread .cfgStateWords trivial,
    fun i => hread (.stateWord i), fun j hj hk => ?_, exec_ctxrd_unmapped⟩
  rw [← byte_setWidth_word]
  exact hread (.pendingByte j) hj hk

/-- Settles O23: every clause in `LIVE` is the write of one register, or of none. -/
theorem ctxwrWritesOneField : Obligations.CtxwrWritesOneField := by
  intro s idx v hwf k ok
  refine ⟨fun hph => exec_ctxwr_not_live hph v, fun hlive => ?_⟩
  have hwrite : ∀ r : CtxReg, r.InWindow Config.params → r.writable = true → k = r.index →
      exec (.ctxwr idx v) s = .next (respond [0] (writeCtx r v s)) :=
    fun _ hw hrw hk => exec_ctxwr_writes hlive hw hrw hk v
  refine ⟨hwrite .bitlenLo trivial rfl, hwrite .bitlenHi trivial rfl, hwrite .pendingLen trivial rfl,
    fun i hi => hwrite (.stateWord i) hi rfl,
    fun j hj hk => ⟨Memory.write s.pending j (v.setWidth 8), hwrite (.pendingByte j) hj rfl hk, ?_, fun a ha => ?_⟩,
    fun h => exec_ctxwr_not_writable hlive h v⟩
  · rw [Memory.read_write hwf, if_pos rfl, BitVec.setWidth_eq_extractLsb' (by decide)]
  · rw [Memory.read_write hwf, if_neg ha]

/-- Settles O24: neither a read-only nor an unmapped index is read/write, and the ranges named lie outside the map. -/
theorem ctxwrRefusals : Obligations.CtxwrRefusals := by
  have hwords := Config.params_lawful.stateWords_le
  refine ⟨fun s idx v hlive => ⟨fun h3 h7 => exec_ctxwr_not_writable hlive (writableIndex_readOnly h3 h7) v,
      fun h => exec_ctxwr_not_writable hlive (writableIndex_of_unmapped h) v⟩,
    fun s idx => exec_ctxrd_unmapped, fun i hi hi' => mappedIndex_eq_false_iff.2 (by omega),
    fun j hj => mappedIndex_eq_false_iff.2 (by omega), fun k hk hk' => mappedIndex_eq_false_iff.2 (by omega)⟩

/-- Settles O25: two indices name two registers, and a write is read back from its own register alone. -/
theorem ctxwrThenCtxrd : Obligations.CtxwrThenCtxrd := by
  intro s t idx idx' v hs hlive hidx hexec
  obtain ⟨r, hk, hw, hrw⟩ := register_of_writable hidx
  obtain rfl : respond [0] (writeCtx r v s) = t :=
    Host.Outcome.next.inj ((exec_ctxwr_writes hlive hw hrw hk v).symm.trans hexec)
  refine ⟨?_, fun hne hmapped => ?_⟩
  · rw [exec_ctxrd_reads hw hk, readCtx_respond, readCtx_writeCtx_same Config.params_lawful hs hw hrw, hk]
  · obtain ⟨r', hk', hw'⟩ := register_of_mapped hmapped
    have hrr : r' ≠ r := by
      rintro rfl
      exact hne (BitVec.eq_of_toNat_eq (hk'.trans hk.symm))
    refine ⟨readCtx Config.params s r', exec_ctxrd_reads hw' hk', ?_⟩
    rw [exec_ctxrd_reads hw' hk', readCtx_respond, readCtx_writeCtx_of_ne _ hs.pendingWf hrr]

end Sys2Proof.Machine

/-! The statement about the plugin interface (spec 46_plugin): one dispatch of several blocks is their dispatch one by
one. A run recurses on its count of blocks; cut after any of them, it goes on from the state reached
(`compressN_append`). -/

namespace Sys2Proof.Machine

/-- Settles O37: a run of no block ends at once, of one block after `F`, and a longer one goes on from any cut. -/
theorem compressRunSplits : Obligations.CompressRunSplits := by
  intro p σ
  refine ⟨fun _ => rfl, compressN_one p σ, fun x y i j hx _ => ?_⟩
  have hblocks : x.length = p.blockSize * i := hx.trans (Nat.mul_comm _ _)
  exact compressN_append p j σ y hblocks

end Sys2Proof.Machine

/-! The statements about faults and the phase (spec 60_exceptions). A command that answers completes into the phase of
the table, or is the fault of its status and nothing else (`exec_answer_cases`); from `FAULT` a step only answers, or is
another fault (`step_from_fault_cases`). -/

namespace Sys2Proof.Machine

/-! ### The status and the phase -/

section
variable {p : Params} {i : Instr} {s t : State}

/-- The status of `ProtocolViolation` is the phase's alone (R246, R247). -/
theorem expectedStatus_eq_two_iff : expectedStatus p i s = 2 ↔ permitted i s.phase = false := by
  unfold expectedStatus
  cases permitted i s.phase with
  | false => exact iff_of_true rfl rfl
  | true =>
    refine iff_of_false ?_ Bool.noConfusion
    rw [if_neg (by decide)]
    cases i with
    | absorb | finalize | ctxrd | ctxwr => dsimp only; split <;> decide
    | _ => exact (by decide : (0 : Word) ≠ 2)

/-- In `FAULT` only `CTXRD` is permitted (R247). -/
theorem permitted_in_fault_iff : permitted i .fault = true ↔ ∃ idx, i = .ctxrd idx := by
  cases i <;> simp [permitted]

/-- A command that answers completes, with the status OK first and the phase of the table, or is the fault of its
status, taken after the payload (R241, R243, R247). -/
theorem exec_answer_cases (h : exec i s = .next t) :
    (expectedStatus Config.params i s = 0 ∧ (∃ data, t.rsp = s.rsp ++ 0 :: data) ∧ t.phase = phaseAfter i s.phase) ∨
    (expectedStatus Config.params i s ≠ 0 ∧
      t = faulted (expectedStatus Config.params i s) (afterPayload (i.payloadLen Config.params.blockSize) s)) := by
  obtain ⟨payload, -, -, ⟨h0, rfl⟩ | hfault⟩ := exec_cases h
  · obtain ⟨hphase, -, -, -, hrsp⟩ := commandEffect_frame Config.params i payload
      (afterPayload (i.payloadLen Config.params.blockSize) s)
    exact .inl ⟨h0, ⟨_, congrArg (· ++ _) hrsp⟩, hphase⟩
  · exact .inr hfault

/-- A command that the phase does not permit is `ProtocolViolation`, its payload taken (R246). -/
theorem exec_not_permitted (hperm : permitted i s.phase = false) (h : exec i s = .next t) :
    t = faulted 2 (afterPayload (i.payloadLen Config.params.blockSize) s) := by
  have hst : expectedStatus Config.params i s = 2 := expectedStatus_eq_two_iff.2 hperm
  obtain ⟨h0, -⟩ | ⟨-, rfl⟩ := exec_answer_cases h
  · exact absurd (hst.symm.trans h0) (by decide)
  · rw [hst]

/-- A step from `FAULT` takes its packet and does nothing but answer, or is a fault: the command that completes there
is `CTXRD` (R247, R250). -/
theorem step_from_fault_cases (hph : s.phase = .fault) (h : step s = .next t) :
    ∃ n rest, (∃ answer, t = respond answer (afterPayload n (afterWords rest s))) ∨
      ∃ c, t = faulted c (afterPayload n (afterWords rest s)) := by
  obtain ⟨i, n, rest, payload, answer, -, h0, rfl⟩ | ⟨-, c, n, rest, -, rfl⟩ := step_cases h
  · have hperm : permitted i s.phase = true := permitted_of_expectedStatus_eq_zero h0
    obtain ⟨idx, rfl⟩ := permitted_in_fault_iff.1 (hph ▸ hperm)
    exact ⟨n, rest, .inl ⟨answer, rfl⟩⟩
  · exact ⟨n, rest, .inr ⟨c, rfl⟩⟩

/-- A step from `FAULT` stays there, and with a code recorded it keeps that code, the context, the output and the trace
(R243, R250). -/
theorem step_keeps_fault (hph : s.phase = .fault) (hcode : s.faultCode ≠ 0) (h : step s = .next t) :
    t.phase = .fault ∧ t.faultCode = s.faultCode ∧ SameContext s t ∧ t.dout = s.dout ∧ t.trace = s.trace := by
  obtain ⟨n, rest, ⟨answer, rfl⟩ | ⟨c, rfl⟩⟩ := step_from_fault_cases hph h
  · exact ⟨hph, rfl, ⟨rfl, rfl, rfl, rfl, rfl⟩, rfl, rfl⟩
  · exact ⟨rfl, if_neg hcode, ⟨rfl, rfl, rfl, rfl, rfl⟩, rfl, rfl⟩

end

/-! ### The statements -/

/-- Settles O14: a command that does not complete is the fault of its status, an illegal word the fault of code 1. -/
theorem faultChangesOnlyPhaseAndCode : Obligations.FaultChangesOnlyPhaseAndCode := by
  intro s t hstep
  obtain ⟨i, rest, hdec, hexec⟩ | ⟨cw, rest, hdec, rfl⟩ := step_next hstep
  · obtain ⟨-, hok, -⟩ | ⟨hne, rfl⟩ := exec_answer_cases hexec
    · exact .inl hok
    · have hcode := (expectedStatus_range Config.params i (afterWords rest s)).resolve_left hne
      exact .inr (.inl ⟨i, rest, _, hdec, hcode, rfl⟩)
  · exact .inr (.inr ⟨cw, rest, hdec, rfl⟩)

/-- Settles O15: a command answers OK exactly when its status is OK, and else the code of the fault it takes. -/
theorem statusIsFirstFault : Obligations.StatusIsFirstFault := by
  intro i s t hexec
  obtain ⟨h0, hok, -⟩ | ⟨hne, rfl⟩ := exec_answer_cases hexec
  · exact ⟨h0 ▸ hok, fun hne => absurd h0 hne⟩
  · exact ⟨⟨[], rfl⟩, fun _ => rfl⟩

/-- Settles O16: the status is 2 exactly where the table does not permit the command, and every fault leads to
`FAULT`. -/
theorem phaseTable : Obligations.PhaseTable := by
  refine ⟨fun i s t hexec => ⟨fun hperm => exec_not_permitted hperm hexec, fun hperm => ?_⟩,
    fun s cw rest => step_of_illegal, fun s t hph hstep => ?_⟩
  · obtain ⟨h0, -, hphase⟩ | ⟨hne, rfl⟩ := exec_answer_cases hexec
    · exact .inl ⟨hphase, h0⟩
    · have hne2 : expectedStatus Config.params i s ≠ 2 := fun h2 =>
        Bool.noConfusion (hperm.symm.trans (expectedStatus_eq_two_iff.1 h2))
      exact .inr ⟨rfl, ((expectedStatus_range Config.params i s).resolve_left hne).resolve_left hne2⟩
  · obtain ⟨n, rest, ⟨answer, rfl⟩ | ⟨c, rfl⟩⟩ := step_from_fault_cases hph hstep
    · exact hph
    · rfl

/-- Settles O17: a step from `FAULT` only answers or is another fault; what it answers is told by what `CMD` decodes
to. -/
theorem faultIsAbsorbing : Obligations.FaultIsAbsorbing := by
  intro s t hph hcode
  refine ⟨rfl, fun hstep => ?_⟩
  obtain ⟨hphase, hkept, hctx, hdout, htrace⟩ := step_keeps_fault hph hcode hstep
  refine ⟨hphase, hkept, hctx, hdout, htrace, fun cw rest hdec => ?_, fun i rest hdec => ?_⟩
  · rw [step_of_illegal hdec] at hstep
    cases hstep; rfl
  · rw [step_of_instr hdec] at hstep
    refine ⟨?_, ?_, fun hi => ?_⟩
    · rintro idx rfl hunmapped
      rw [exec_ctxrd_unmapped hunmapped] at hstep
      cases hstep; rfl
    · rintro idx rfl hmapped
      obtain ⟨r, hk, hw⟩ := register_of_mapped hmapped
      rw [exec_ctxrd_reads hw hk] at hstep
      cases hstep; exact ⟨_, rfl⟩
    · have hperm : permitted i s.phase = false := by
        rw [hph, ← Bool.not_eq_true, permitted_in_fault_iff]
        exact fun ⟨idx, h⟩ => hi idx h
      rw [exec_not_permitted (s := afterWords rest s) hperm hstep]
      rfl

end Sys2Proof.Machine
